-- ==== Sys2Proof/Word.lean ====
section
/-! DEFINITION. The machine's value types: 32-bit words, bytes, 5-bit register indices, and
lines of text for the codec's text side. -/

namespace Sys2Proof

/-- A 32-bit value: a register, the program counter, a machine word (R7, R56). -/
abbrev Word := BitVec 32

/-- A byte of data memory (R35). -/
abbrev Byte := BitVec 8

/-- A register index, the 5-bit field `rd`, `rs1` or `rs2` of an instruction (R11, R57). -/
abbrev RegIdx := BitVec 5

/-- One line of text of the assembler or the disassembler, as its characters (R94, R98). -/
abbrev Text := List Char

end Sys2Proof
end

