-- ==== Sys2Proof/Machine/Errors.lean ====
section
/-! DEFINITION. The error kinds of R159, as closed enumerations. -/

namespace Sys2Proof

/-- The failures that end a run: what the step's fetch or decode can fail with (R159, R161).
The pc of the failing step stays in the state (R161), so no kind carries it. -/
inductive FaultKind where
  /-- Raised by the fetch: pc mod 4 ≠ 0 (R45, D9). -/
  | fetchMisaligned
  /-- Raised by the fetch: pc / 4 ≥ IMEM_WORDS (R45, D10). -/
  | fetchOutOfRange
  /-- Raised by the fetch: the slot was not written by loadProgram (R45, D11). -/
  | fetchUnloaded
  /-- Raised by resolve: the word matches no row of the spec table (R78). -/
  | unknownEncoding
  /-- Raised by resolve: the word matches two or more rows (R78). No word does (C4). -/
  | ambiguousEncoding
  deriving DecidableEq, Repr

/-- Every error kind of the spec, in the order of R159's table: the five that end a run and the
six of the text side, which never reach the machine (R160). -/
inductive ErrorKind where
  | fetchMisaligned
  | fetchOutOfRange
  | fetchUnloaded
  | unknownEncoding
  | ambiguousEncoding
  /-- Raised by specFor: a text mnemonic outside the 37 (R77). -/
  | unknownMnemonic
  /-- Raised by parseRegister: a token that names no register (R90). -/
  | unknownRegister
  /-- Raised by parseImmediate: a value outside the format's range (R93). -/
  | immediateOutOfRange
  /-- Raised by parseImmediate: nonzero low alignment bits (R93). -/
  | immediateMisaligned
  /-- Raised by decodeText: wrong operand count, bad shape, unparsable literal (R95). -/
  | malformedOperands
  /-- Raised by disassembleText: not exactly 8 hexadecimal characters (R104). -/
  | malformedHexLine
  deriving DecidableEq, Repr

end Sys2Proof
end

