-- ==== Sys2Proof/Machine/Bits.lean ====
section
/-! DEFINITION. The pseudocode primitives of R9 on words and integers, the order of the four
bytes of a word (R41, R42), and the numbers of the error kinds (R159). -/

namespace Sys2Proof

/-- `u32(v)`: any integer modulo 2^32, as a word (R9). -/
def u32 (v : Int) : Word := BitVec.ofInt 32 v

/-- `s32(v)`: a word read as a two's-complement integer (R9). -/
def s32 (v : Word) : Int := v.toInt

/-- `sext_n(v)`: the low `n` bits of `v` read as a two's-complement integer (R9). -/
def sextN (n v : Nat) : Int := (BitVec.ofNat n v).toInt

/-- Byte `i` of a word, byte 0 the least significant: `(v >> 8i) mod 256` (R39). -/
def byteOf (v : Word) (i : Nat) : Byte := (v >>> (8 * i)).setWidth 8

/-- The word of four bytes, the least significant first (R42, R104). -/
def wordOfBytes (b0 b1 b2 b3 : Byte) : Word := b3 ++ b2 ++ b1 ++ b0

/-- Where a fault kind stands among all error kinds (R159). -/
def FaultKind.toErrorKind : FaultKind → ErrorKind
  | .fetchMisaligned => .fetchMisaligned
  | .fetchOutOfRange => .fetchOutOfRange
  | .fetchUnloaded => .fetchUnloaded
  | .unknownEncoding => .unknownEncoding
  | .ambiguousEncoding => .ambiguousEncoding

/-- The number of an error kind, in the order of R159's table from 0 (D29). -/
def ErrorKind.code : ErrorKind → Nat
  | .fetchMisaligned => 0
  | .fetchOutOfRange => 1
  | .fetchUnloaded => 2
  | .unknownEncoding => 3
  | .ambiguousEncoding => 4
  | .unknownMnemonic => 5
  | .unknownRegister => 6
  | .immediateOutOfRange => 7
  | .immediateMisaligned => 8
  | .malformedOperands => 9
  | .malformedHexLine => 10

end Sys2Proof
end

