-- ==== Sys2Proof/Machine/Alu.lean ====
section
/-! DEFINITION. The ALU block (R106): a function of an operation and two words. It keeps no state
and reports no carry, borrow or overflow (R107). -/

namespace Sys2Proof.Machine

/-- The ten operations (R106). -/
inductive AluOp where
  | add | sub | and | or | xor | slt | sltu | sll | srl | sra
  deriving DecidableEq, Repr

/-- The shift amount: the low 5 bits of the second operand (R108). -/
def shiftAmount (b : Word) : Nat := b.toNat % 32

/-- `alu(op, a, b)` (R106). -/
def alu : AluOp → Word → Word → Word
  | .add, a, b => a + b
  | .sub, a, b => a - b
  | .and, a, b => a &&& b
  | .or, a, b => a ||| b
  | .xor, a, b => a ^^^ b
  | .slt, a, b => if a.slt b then 1#32 else 0#32
  | .sltu, a, b => if a.ult b then 1#32 else 0#32
  | .sll, a, b => a <<< shiftAmount b
  | .srl, a, b => a >>> shiftAmount b
  | .sra, a, b => a.sshiftRight (shiftAmount b)

end Sys2Proof.Machine
end

