-- ==== Sys2Proof/Machine/Flags.lean ====
section
/-! DEFINITION. The branch comparator (R151). The machine has no status flags, condition codes or
predicate registers (R26): a branch compares two registers directly, and this comparison is the
only condition the machine computes. -/

namespace Sys2Proof.Machine

/-- The six comparisons (R151). -/
inductive BranchCond where
  | eq | ne | lt | ge | ltu | geu
  deriving DecidableEq, Repr

/-- The comparator: EQ and NE on the bit patterns, LT and GE signed, LTU and GEU unsigned. -/
def branchHolds : BranchCond → Word → Word → Bool
  | .eq, a, b => a == b
  | .ne, a, b => a != b
  | .lt, a, b => a.slt b
  | .ge, a, b => !a.slt b
  | .ltu, a, b => a.ult b
  | .geu, a, b => !a.ult b

end Sys2Proof.Machine
end

