-- ==== Sys2Proof/Syntax.lean ====
section
/-! DEFINITION. The structured instruction (R66): a mnemonic of the spec table with the fields
its format carries (R58). One constructor per row of spec/opcode_table.json, in the table's order.
The immediate is the decoded integer of R67, of a type that holds the valid immediates of the format
and no other (R66, D26): signed for the formats I, S, B and J, unsigned for U (already multiplied by
4096) and I2 (the shift amount). So there is no invalid structured instruction, and whatever is
defined on `Instr` is defined on valid ones only (R82). -/

namespace Sys2Proof

/-! ### The sets of valid immediates (R66), and the types of their members -/

/-- Formats I and S: the integers in [−2048, 2047]. -/
abbrev ImmI.Valid (imm : Int) : Prop := -2048 ≤ imm ∧ imm ≤ 2047

/-- Format B: the even integers in [−4096, 4094]. -/
abbrev ImmB.Valid (imm : Int) : Prop := -4096 ≤ imm ∧ imm ≤ 4094 ∧ imm % 2 = 0

/-- Format J: the even integers in [−1048576, 1048574]. -/
abbrev ImmJ.Valid (imm : Int) : Prop := -1048576 ≤ imm ∧ imm ≤ 1048574 ∧ imm % 2 = 0

/-- Format U: the multiples of 4096 in [0, 0xFFFFF000] (C1: unsigned). -/
abbrev ImmU.Valid (imm : Nat) : Prop := imm ≤ 0xFFFFF000 ∧ imm % 4096 = 0

/-- Format I2: the shift amounts in [0, 31]. -/
abbrev Shamt.Valid (imm : Nat) : Prop := imm ≤ 31

/-- An immediate of format I or S. -/
abbrev ImmI := { imm : Int // ImmI.Valid imm }
/-- An immediate of format B. -/
abbrev ImmB := { imm : Int // ImmB.Valid imm }
/-- An immediate of format J. -/
abbrev ImmJ := { imm : Int // ImmJ.Valid imm }
/-- An immediate of format U. -/
abbrev ImmU := { imm : Nat // ImmU.Valid imm }
/-- A shift amount of format I2. -/
abbrev Shamt := { imm : Nat // Shamt.Valid imm }

/-! ### The structured instruction -/

inductive Instr where
  -- format U: rd, imm
  | lui (rd : RegIdx) (imm : ImmU)
  | auipc (rd : RegIdx) (imm : ImmU)
  -- format J: rd, imm
  | jal (rd : RegIdx) (imm : ImmJ)
  -- format I, the indirect jump: rd, rs1, imm
  | jalr (rd rs1 : RegIdx) (imm : ImmI)
  -- format B: rs1, rs2, imm
  | beq (rs1 rs2 : RegIdx) (imm : ImmB)
  | bne (rs1 rs2 : RegIdx) (imm : ImmB)
  | blt (rs1 rs2 : RegIdx) (imm : ImmB)
  | bge (rs1 rs2 : RegIdx) (imm : ImmB)
  | bltu (rs1 rs2 : RegIdx) (imm : ImmB)
  | bgeu (rs1 rs2 : RegIdx) (imm : ImmB)
  -- format I, the loads: rd, rs1, imm
  | lb (rd rs1 : RegIdx) (imm : ImmI)
  | lh (rd rs1 : RegIdx) (imm : ImmI)
  | lw (rd rs1 : RegIdx) (imm : ImmI)
  | lbu (rd rs1 : RegIdx) (imm : ImmI)
  | lhu (rd rs1 : RegIdx) (imm : ImmI)
  -- format S: rs1, rs2, imm
  | sb (rs1 rs2 : RegIdx) (imm : ImmI)
  | sh (rs1 rs2 : RegIdx) (imm : ImmI)
  | sw (rs1 rs2 : RegIdx) (imm : ImmI)
  -- format I, the immediate ALU operations: rd, rs1, imm
  | addi (rd rs1 : RegIdx) (imm : ImmI)
  | slti (rd rs1 : RegIdx) (imm : ImmI)
  | sltiu (rd rs1 : RegIdx) (imm : ImmI)
  | xori (rd rs1 : RegIdx) (imm : ImmI)
  | ori (rd rs1 : RegIdx) (imm : ImmI)
  | andi (rd rs1 : RegIdx) (imm : ImmI)
  -- format I2: rd, rs1, imm (the shift amount)
  | slli (rd rs1 : RegIdx) (imm : Shamt)
  | srli (rd rs1 : RegIdx) (imm : Shamt)
  | srai (rd rs1 : RegIdx) (imm : Shamt)
  -- format R: rd, rs1, rs2
  | add (rd rs1 rs2 : RegIdx)
  | sub (rd rs1 rs2 : RegIdx)
  | sll (rd rs1 rs2 : RegIdx)
  | slt (rd rs1 rs2 : RegIdx)
  | sltu (rd rs1 rs2 : RegIdx)
  | xor (rd rs1 rs2 : RegIdx)
  | srl (rd rs1 rs2 : RegIdx)
  | sra (rd rs1 rs2 : RegIdx)
  | or (rd rs1 rs2 : RegIdx)
  | and (rd rs1 rs2 : RegIdx)
  deriving DecidableEq, Repr

end Sys2Proof
end

