-- ==== Sys2Proof/Machine/SpecTable.lean ====
section
/-! DEFINITION. The Instruction Spec Table (R75): each of the 37 mnemonics with its format and
selector constants. It is constant and shared by the decoder, the encoder and the text codec. The
ADD row is the source's; the values of the other 36 rows are standard RV32I, adopted by D2. -/

namespace Sys2Proof

/-- The seven formats (R58). -/
inductive Format where
  | r | i | i2 | s | b | u | j
  deriving DecidableEq, Repr

/-- The 37 mnemonics, in the order of R75. -/
inductive Mnemonic where
  | lui | auipc | jal | jalr
  | beq | bne | blt | bge | bltu | bgeu
  | lb | lh | lw | lbu | lhu
  | sb | sh | sw
  | addi | slti | sltiu | xori | ori | andi | slli | srli | srai
  | add | sub | sll | slt | sltu | xor | srl | sra | or | and
  deriving DecidableEq, Repr

/-- One row of the table (R12: InstructionSpec): the format, the opcode, and the selectors funct3
and funct7 where the format has them. -/
structure InstructionSpec where
  format : Format
  opcode : BitVec 7
  funct3 : Option (BitVec 3)
  funct7 : Option (BitVec 7)
  deriving DecidableEq, Repr

/-- Every mnemonic once, in the order of R75. -/
def allMnemonics : List Mnemonic :=
  [.lui, .auipc, .jal, .jalr, .beq, .bne, .blt, .bge, .bltu, .bgeu, .lb, .lh, .lw, .lbu, .lhu,
   .sb, .sh, .sw, .addi, .slti, .sltiu, .xori, .ori, .andi, .slli, .srli, .srai,
   .add, .sub, .sll, .slt, .sltu, .xor, .srl, .sra, .or, .and]

/-- The row of a mnemonic (R75, R77). -/
def specFor : Mnemonic → InstructionSpec
  | .lui   => ⟨.u,  0b0110111, none, none⟩
  | .auipc => ⟨.u,  0b0010111, none, none⟩
  | .jal   => ⟨.j,  0b1101111, none, none⟩
  | .jalr  => ⟨.i,  0b1100111, some 0b000, none⟩
  | .beq   => ⟨.b,  0b1100011, some 0b000, none⟩
  | .bne   => ⟨.b,  0b1100011, some 0b001, none⟩
  | .blt   => ⟨.b,  0b1100011, some 0b100, none⟩
  | .bge   => ⟨.b,  0b1100011, some 0b101, none⟩
  | .bltu  => ⟨.b,  0b1100011, some 0b110, none⟩
  | .bgeu  => ⟨.b,  0b1100011, some 0b111, none⟩
  | .lb    => ⟨.i,  0b0000011, some 0b000, none⟩
  | .lh    => ⟨.i,  0b0000011, some 0b001, none⟩
  | .lw    => ⟨.i,  0b0000011, some 0b010, none⟩
  | .lbu   => ⟨.i,  0b0000011, some 0b100, none⟩
  | .lhu   => ⟨.i,  0b0000011, some 0b101, none⟩
  | .sb    => ⟨.s,  0b0100011, some 0b000, none⟩
  | .sh    => ⟨.s,  0b0100011, some 0b001, none⟩
  | .sw    => ⟨.s,  0b0100011, some 0b010, none⟩
  | .addi  => ⟨.i,  0b0010011, some 0b000, none⟩
  | .slti  => ⟨.i,  0b0010011, some 0b010, none⟩
  | .sltiu => ⟨.i,  0b0010011, some 0b011, none⟩
  | .xori  => ⟨.i,  0b0010011, some 0b100, none⟩
  | .ori   => ⟨.i,  0b0010011, some 0b110, none⟩
  | .andi  => ⟨.i,  0b0010011, some 0b111, none⟩
  | .slli  => ⟨.i2, 0b0010011, some 0b001, some 0b0000000⟩
  | .srli  => ⟨.i2, 0b0010011, some 0b101, some 0b0000000⟩
  | .srai  => ⟨.i2, 0b0010011, some 0b101, some 0b0100000⟩
  | .add   => ⟨.r,  0b0110011, some 0b000, some 0b0000000⟩
  | .sub   => ⟨.r,  0b0110011, some 0b000, some 0b0100000⟩
  | .sll   => ⟨.r,  0b0110011, some 0b001, some 0b0000000⟩
  | .slt   => ⟨.r,  0b0110011, some 0b010, some 0b0000000⟩
  | .sltu  => ⟨.r,  0b0110011, some 0b011, some 0b0000000⟩
  | .xor   => ⟨.r,  0b0110011, some 0b100, some 0b0000000⟩
  | .srl   => ⟨.r,  0b0110011, some 0b101, some 0b0000000⟩
  | .sra   => ⟨.r,  0b0110011, some 0b101, some 0b0100000⟩
  | .or    => ⟨.r,  0b0110011, some 0b110, some 0b0000000⟩
  | .and   => ⟨.r,  0b0110011, some 0b111, some 0b0000000⟩

/-- The canonical lowercase spelling of a mnemonic (R94, R98). -/
def Mnemonic.name : Mnemonic → Text
  | .lui => "lui".toList | .auipc => "auipc".toList | .jal => "jal".toList
  | .jalr => "jalr".toList | .beq => "beq".toList | .bne => "bne".toList
  | .blt => "blt".toList | .bge => "bge".toList | .bltu => "bltu".toList
  | .bgeu => "bgeu".toList | .lb => "lb".toList | .lh => "lh".toList | .lw => "lw".toList
  | .lbu => "lbu".toList | .lhu => "lhu".toList | .sb => "sb".toList | .sh => "sh".toList
  | .sw => "sw".toList | .addi => "addi".toList | .slti => "slti".toList
  | .sltiu => "sltiu".toList | .xori => "xori".toList | .ori => "ori".toList
  | .andi => "andi".toList | .slli => "slli".toList | .srli => "srli".toList
  | .srai => "srai".toList | .add => "add".toList | .sub => "sub".toList
  | .sll => "sll".toList | .slt => "slt".toList | .sltu => "sltu".toList
  | .xor => "xor".toList | .srl => "srl".toList | .sra => "sra".toList | .or => "or".toList
  | .and => "and".toList

/-- The mnemonic of a structured instruction (R66). -/
def Instr.mnemonic : Instr → Mnemonic
  | .lui _ _ => .lui | .auipc _ _ => .auipc | .jal _ _ => .jal | .jalr _ _ _ => .jalr
  | .beq _ _ _ => .beq | .bne _ _ _ => .bne | .blt _ _ _ => .blt | .bge _ _ _ => .bge
  | .bltu _ _ _ => .bltu | .bgeu _ _ _ => .bgeu
  | .lb _ _ _ => .lb | .lh _ _ _ => .lh | .lw _ _ _ => .lw | .lbu _ _ _ => .lbu
  | .lhu _ _ _ => .lhu | .sb _ _ _ => .sb | .sh _ _ _ => .sh | .sw _ _ _ => .sw
  | .addi _ _ _ => .addi | .slti _ _ _ => .slti | .sltiu _ _ _ => .sltiu
  | .xori _ _ _ => .xori | .ori _ _ _ => .ori | .andi _ _ _ => .andi
  | .slli _ _ _ => .slli | .srli _ _ _ => .srli | .srai _ _ _ => .srai
  | .add _ _ _ => .add | .sub _ _ _ => .sub | .sll _ _ _ => .sll | .slt _ _ _ => .slt
  | .sltu _ _ _ => .sltu | .xor _ _ _ => .xor | .srl _ _ _ => .srl | .sra _ _ _ => .sra
  | .or _ _ _ => .or | .and _ _ _ => .and

end Sys2Proof
end

