-- ==== Sys2Proof/WellFormed.lean ====
section
/-! DEFINITION. Validity (R66) as a check on untyped records: a mnemonic with field values that
nobody has checked, such as the operand parser reads. A register index is in [0, 31] by its type; each
format says which immediates it has. `Instr` holds exactly the records that pass. -/

namespace Sys2Proof

/-- The field values of a record, before any check; a field its format does not carry is 0. -/
structure Fields where
  rd : RegIdx := 0
  rs1 : RegIdx := 0
  rs2 : RegIdx := 0
  imm : Int := 0
  deriving DecidableEq, Repr

/-- The immediate lies in the set of its format (R66); format R has none. -/
def Fields.wellFormed (format : Format) (f : Fields) : Bool :=
  match format with
  | .r => true
  | .i | .s => decide (ImmI.Valid f.imm)
  | .b => decide (ImmB.Valid f.imm)
  | .j => decide (ImmJ.Valid f.imm)
  | .u => decide (0 ≤ f.imm ∧ ImmU.Valid f.imm.toNat)
  | .i2 => decide (0 ≤ f.imm ∧ Shamt.Valid f.imm.toNat)

/-- Validity as a proposition, the form statements use. -/
abbrev Fields.WellFormed (format : Format) (f : Fields) : Prop := f.wellFormed format = true

end Sys2Proof
end

