-- ==== Sys2Proof/Decode.lean ====
section
/-! DEFINITION. The instruction decoder (R78, R80) and, after it, the instruction encoder (R74,
R81, R82). Both read the one Instruction Spec Table of R75. The decoder is total on all 2^32
words: a word gives a valid structured instruction or a failure by name. -/

namespace Sys2Proof

/-! ### Fields at their fixed positions (R57) -/

/-- opcode: bits [6:0]. -/
def opcodeOf (w : Word) : BitVec 7 := w.extractLsb 6 0
/-- funct3: bits [14:12]. -/
def funct3Of (w : Word) : BitVec 3 := w.extractLsb 14 12
/-- funct7: bits [31:25]. -/
def funct7Of (w : Word) : BitVec 7 := w.extractLsb 31 25
/-- rd: bits [11:7]. -/
def rdOf (w : Word) : RegIdx := w.extractLsb 11 7
/-- rs1: bits [19:15]. -/
def rs1Of (w : Word) : RegIdx := w.extractLsb 19 15
/-- rs2: bits [24:20]. -/
def rs2Of (w : Word) : RegIdx := w.extractLsb 24 20

/-! ### Immediates, per format (R67): a bit pattern is always a valid immediate -/

/-- A bit vector that ends in a 0 bit is an even number. -/
theorem toInt_append_zero_even {n : Nat} (x : BitVec n) : (x ++ 0#1).toInt % 2 = 0 := by
  have h : (x ++ 0#1).toNat % 2 = 0 := by
    rw [BitVec.toNat_append]; simp [Nat.shiftLeft_eq]
  have e : (2 : Int) ∣ ((2 ^ (n + 1) : Nat) : Int) := ⟨2 ^ n, by push_cast; ring⟩
  have hm := Int.emod_emod_of_dvd ((x ++ 0#1).toNat : Int) e
  rw [BitVec.toInt_eq_toNat_bmod, Int.bmod_def]
  obtain ⟨k, hk⟩ := e
  split <;> omega

theorem immI_valid (x : BitVec 12) : ImmI.Valid x.toInt := by
  have h1 : 2 * x.toInt < 2 ^ 12 := BitVec.two_mul_toInt_lt
  have h2 : -2 ^ 12 ≤ 2 * x.toInt := BitVec.le_two_mul_toInt
  exact ⟨by omega, by omega⟩

theorem immB_valid (x : BitVec 12) : ImmB.Valid (x ++ 0#1).toInt := by
  have h1 : 2 * (x ++ 0#1).toInt < 2 ^ 13 := BitVec.two_mul_toInt_lt
  have h2 : -2 ^ 13 ≤ 2 * (x ++ 0#1).toInt := BitVec.le_two_mul_toInt
  have h3 := toInt_append_zero_even x
  exact ⟨by omega, by omega, h3⟩

theorem immJ_valid (x : BitVec 20) : ImmJ.Valid (x ++ 0#1).toInt := by
  have h1 : 2 * (x ++ 0#1).toInt < 2 ^ 21 := BitVec.two_mul_toInt_lt
  have h2 : -2 ^ 21 ≤ 2 * (x ++ 0#1).toInt := BitVec.le_two_mul_toInt
  have h3 := toInt_append_zero_even x
  exact ⟨by omega, by omega, h3⟩

theorem immU_valid (x : BitVec 20) : ImmU.Valid (x.toNat * 4096) :=
  ⟨by have := x.isLt; omega, by omega⟩

theorem shamt_valid (x : BitVec 5) : Shamt.Valid x.toNat := by
  have := x.isLt; unfold Shamt.Valid; omega

/-- R68: `sext_12(w[31:20])`. -/
def immI (w : Word) : ImmI := ⟨(w.extractLsb 31 20).toInt, immI_valid _⟩
/-- R69: `zext_5(w[24:20])`; bits [31:25] are the funct7 selector (C2, D4). -/
def immI2 (w : Word) : Shamt := ⟨(w.extractLsb 24 20).toNat, shamt_valid _⟩
/-- R70: `sext_12(w[31:25] : w[11:7])`. -/
def immS (w : Word) : ImmI := ⟨(w.extractLsb 31 25 ++ w.extractLsb 11 7).toInt, immI_valid _⟩
/-- R71: `sext_13(w[31] : w[7] : w[30:25] : w[11:8] : 0)`. -/
def immB (w : Word) : ImmB :=
  ⟨(w.extractLsb 31 31 ++ w.extractLsb 7 7 ++ w.extractLsb 30 25 ++ w.extractLsb 11 8 ++
    0#1).toInt, immB_valid _⟩
/-- R72: `zext_20(w[31:12]) × 4096`; unsigned (C1). -/
def immU (w : Word) : ImmU := ⟨(w.extractLsb 31 12).toNat * 4096, immU_valid _⟩
/-- R73: `sext_21(w[31] : w[19:12] : w[20] : w[30:21] : 0)`. -/
def immJ (w : Word) : ImmJ :=
  ⟨(w.extractLsb 31 31 ++ w.extractLsb 19 12 ++ w.extractLsb 20 20 ++ w.extractLsb 30 21 ++
    0#1).toInt, immJ_valid _⟩

/-! ### resolve and decodeBinary -/

/-- A row matches when it agrees with the word's bits on every selector it has (R78). -/
def InstructionSpec.matchesSelectors (sp : InstructionSpec) (op : BitVec 7) (f3 : BitVec 3)
    (f7 : BitVec 7) : Bool :=
  sp.opcode == op && sp.funct3.all (· == f3) && sp.funct7.all (· == f7)

/-- The rows that match (R78: the set C; D3). -/
def candidates (op : BitVec 7) (f3 : BitVec 3) (f7 : BitVec 7) : List Mnemonic :=
  allMnemonics.filter fun m => (specFor m).matchesSelectors op f3 f7

/-- `resolve`: the one matching row's mnemonic, or the failure R78 names. -/
def resolve (op : BitVec 7) (f3 : BitVec 3) (f7 : BitVec 7) : Except FaultKind Mnemonic :=
  match candidates op f3 f7 with
  | [] => .error .unknownEncoding
  | [m] => .ok m
  | _ :: _ :: _ => .error .ambiguousEncoding

/-- The fields of the mnemonic's format, read from the word (R58, R80). -/
def fieldsOf (m : Mnemonic) (w : Word) : Instr :=
  match m with
  | .lui => .lui (rdOf w) (immU w)
  | .auipc => .auipc (rdOf w) (immU w)
  | .jal => .jal (rdOf w) (immJ w)
  | .jalr => .jalr (rdOf w) (rs1Of w) (immI w)
  | .beq => .beq (rs1Of w) (rs2Of w) (immB w)
  | .bne => .bne (rs1Of w) (rs2Of w) (immB w)
  | .blt => .blt (rs1Of w) (rs2Of w) (immB w)
  | .bge => .bge (rs1Of w) (rs2Of w) (immB w)
  | .bltu => .bltu (rs1Of w) (rs2Of w) (immB w)
  | .bgeu => .bgeu (rs1Of w) (rs2Of w) (immB w)
  | .lb => .lb (rdOf w) (rs1Of w) (immI w)
  | .lh => .lh (rdOf w) (rs1Of w) (immI w)
  | .lw => .lw (rdOf w) (rs1Of w) (immI w)
  | .lbu => .lbu (rdOf w) (rs1Of w) (immI w)
  | .lhu => .lhu (rdOf w) (rs1Of w) (immI w)
  | .sb => .sb (rs1Of w) (rs2Of w) (immS w)
  | .sh => .sh (rs1Of w) (rs2Of w) (immS w)
  | .sw => .sw (rs1Of w) (rs2Of w) (immS w)
  | .addi => .addi (rdOf w) (rs1Of w) (immI w)
  | .slti => .slti (rdOf w) (rs1Of w) (immI w)
  | .sltiu => .sltiu (rdOf w) (rs1Of w) (immI w)
  | .xori => .xori (rdOf w) (rs1Of w) (immI w)
  | .ori => .ori (rdOf w) (rs1Of w) (immI w)
  | .andi => .andi (rdOf w) (rs1Of w) (immI w)
  | .slli => .slli (rdOf w) (rs1Of w) (immI2 w)
  | .srli => .srli (rdOf w) (rs1Of w) (immI2 w)
  | .srai => .srai (rdOf w) (rs1Of w) (immI2 w)
  | .add => .add (rdOf w) (rs1Of w) (rs2Of w)
  | .sub => .sub (rdOf w) (rs1Of w) (rs2Of w)
  | .sll => .sll (rdOf w) (rs1Of w) (rs2Of w)
  | .slt => .slt (rdOf w) (rs1Of w) (rs2Of w)
  | .sltu => .sltu (rdOf w) (rs1Of w) (rs2Of w)
  | .xor => .xor (rdOf w) (rs1Of w) (rs2Of w)
  | .srl => .srl (rdOf w) (rs1Of w) (rs2Of w)
  | .sra => .sra (rdOf w) (rs1Of w) (rs2Of w)
  | .or => .or (rdOf w) (rs1Of w) (rs2Of w)
  | .and => .and (rdOf w) (rs1Of w) (rs2Of w)

/-- The decoder block (R80). The all-zero word is no instruction: it fails like any other word
that does not resolve (R86). -/
def decodeBinary (w : Word) : Except FaultKind Instr :=
  match resolve (opcodeOf w) (funct3Of w) (funct7Of w) with
  | .ok m => .ok (fieldsOf m w)
  | .error k => .error k

/-- What the decoder answers for the opcode table's word `w` of `nbits` bits; every bit above is 0.
An instruction is one whole 32-bit word of the instruction store (R36, R42, R56), whose bits are
numbered as the table numbers them, so the word needs no byte order. -/
def decodeTableWord (nbits w : Nat) : Option Instr :=
  match decodeBinary (BitVec.ofNat 32 (w % 2 ^ nbits)) with
  | .ok i => some i
  | .error _ => none

/-! ### The encoder (R74, R81): fields laid out at their fixed positions -/

/-- funct3 of a row that has one (R81: "if present"). -/
def funct3For (m : Mnemonic) : BitVec 3 := (specFor m).funct3.getD 0
/-- funct7 of a row that has one. -/
def funct7For (m : Mnemonic) : BitVec 7 := (specFor m).funct7.getD 0

/-- Format R (R59): funct7, rs2, rs1, funct3, rd, opcode. -/
def encodeR (m : Mnemonic) (rd rs1 rs2 : RegIdx) : Word :=
  funct7For m ++ rs2 ++ rs1 ++ funct3For m ++ rd ++ (specFor m).opcode

/-- Format I (R60): imm[11:0], rs1, funct3, rd, opcode. -/
def encodeI (m : Mnemonic) (rd rs1 : RegIdx) (imm : ImmI) : Word :=
  BitVec.ofInt 12 imm.val ++ rs1 ++ funct3For m ++ rd ++ (specFor m).opcode

/-- Format I2 (R61): funct7, the shift amount, rs1, funct3, rd, opcode. -/
def encodeI2 (m : Mnemonic) (rd rs1 : RegIdx) (imm : Shamt) : Word :=
  funct7For m ++ BitVec.ofNat 5 imm.val ++ rs1 ++ funct3For m ++ rd ++ (specFor m).opcode

/-- Format S (R62): imm[11:5], rs2, rs1, funct3, imm[4:0], opcode. -/
def encodeS (m : Mnemonic) (rs1 rs2 : RegIdx) (imm : ImmI) : Word :=
  let u := BitVec.ofInt 12 imm.val
  u.extractLsb 11 5 ++ rs2 ++ rs1 ++ funct3For m ++ u.extractLsb 4 0 ++ (specFor m).opcode

/-- Format B (R63): imm[12], imm[10:5], rs2, rs1, funct3, imm[4:1], imm[11], opcode. -/
def encodeB (m : Mnemonic) (rs1 rs2 : RegIdx) (imm : ImmB) : Word :=
  let u := BitVec.ofInt 13 imm.val
  u.extractLsb 12 12 ++ u.extractLsb 10 5 ++ rs2 ++ rs1 ++ funct3For m ++ u.extractLsb 4 1 ++
    u.extractLsb 11 11 ++ (specFor m).opcode

/-- Format U (R64): imm[31:12], rd, opcode. -/
def encodeU (m : Mnemonic) (rd : RegIdx) (imm : ImmU) : Word :=
  BitVec.ofNat 20 (imm.val / 4096) ++ rd ++ (specFor m).opcode

/-- Format J (R65): imm[20], imm[10:1], imm[11], imm[19:12], rd, opcode. -/
def encodeJ (m : Mnemonic) (rd : RegIdx) (imm : ImmJ) : Word :=
  let u := BitVec.ofInt 21 imm.val
  u.extractLsb 20 20 ++ u.extractLsb 10 1 ++ u.extractLsb 11 11 ++ u.extractLsb 19 12 ++ rd ++
    (specFor m).opcode

/-- The word of a structured instruction (R81). `Instr` holds valid instructions only, so the
encoder has no meaning outside its domain (R82, D26). -/
def encode : Instr → Word
  | .lui rd imm => encodeU .lui rd imm
  | .auipc rd imm => encodeU .auipc rd imm
  | .jal rd imm => encodeJ .jal rd imm
  | .jalr rd rs1 imm => encodeI .jalr rd rs1 imm
  | .beq rs1 rs2 imm => encodeB .beq rs1 rs2 imm
  | .bne rs1 rs2 imm => encodeB .bne rs1 rs2 imm
  | .blt rs1 rs2 imm => encodeB .blt rs1 rs2 imm
  | .bge rs1 rs2 imm => encodeB .bge rs1 rs2 imm
  | .bltu rs1 rs2 imm => encodeB .bltu rs1 rs2 imm
  | .bgeu rs1 rs2 imm => encodeB .bgeu rs1 rs2 imm
  | .lb rd rs1 imm => encodeI .lb rd rs1 imm
  | .lh rd rs1 imm => encodeI .lh rd rs1 imm
  | .lw rd rs1 imm => encodeI .lw rd rs1 imm
  | .lbu rd rs1 imm => encodeI .lbu rd rs1 imm
  | .lhu rd rs1 imm => encodeI .lhu rd rs1 imm
  | .sb rs1 rs2 imm => encodeS .sb rs1 rs2 imm
  | .sh rs1 rs2 imm => encodeS .sh rs1 rs2 imm
  | .sw rs1 rs2 imm => encodeS .sw rs1 rs2 imm
  | .addi rd rs1 imm => encodeI .addi rd rs1 imm
  | .slti rd rs1 imm => encodeI .slti rd rs1 imm
  | .sltiu rd rs1 imm => encodeI .sltiu rd rs1 imm
  | .xori rd rs1 imm => encodeI .xori rd rs1 imm
  | .ori rd rs1 imm => encodeI .ori rd rs1 imm
  | .andi rd rs1 imm => encodeI .andi rd rs1 imm
  | .slli rd rs1 imm => encodeI2 .slli rd rs1 imm
  | .srli rd rs1 imm => encodeI2 .srli rd rs1 imm
  | .srai rd rs1 imm => encodeI2 .srai rd rs1 imm
  | .add rd rs1 rs2 => encodeR .add rd rs1 rs2
  | .sub rd rs1 rs2 => encodeR .sub rd rs1 rs2
  | .sll rd rs1 rs2 => encodeR .sll rd rs1 rs2
  | .slt rd rs1 rs2 => encodeR .slt rd rs1 rs2
  | .sltu rd rs1 rs2 => encodeR .sltu rd rs1 rs2
  | .xor rd rs1 rs2 => encodeR .xor rd rs1 rs2
  | .srl rd rs1 rs2 => encodeR .srl rd rs1 rs2
  | .sra rd rs1 rs2 => encodeR .sra rd rs1 rs2
  | .or rd rs1 rs2 => encodeR .or rd rs1 rs2
  | .and rd rs1 rs2 => encodeR .and rd rs1 rs2

/-- The encoder block `encodeBinary` (R81, R82): the inverse of `decodeBinary` on instructions (R83)
and on words that resolve to exactly one mnemonic (R84). -/
abbrev encodeBinary (i : Instr) : Word := encode i

/-- R84 at one word: where its selectors resolve to a mnemonic,
`encodeBinary(decodeBinary(w)) == w`. `Obligations.EncodeOfDecode` states it of every word. -/
def RoundTripsFromWord (w : Word) : Prop :=
  ∀ m, resolve (opcodeOf w) (funct3Of w) (funct7Of w) = .ok m →
    ∃ i, decodeBinary w = .ok i ∧ i.mnemonic = m ∧ encodeBinary i = w

end Sys2Proof
end

