-- ==== Sys2Proof/Config.lean ====
section
/-! DEFINITION. The implementation parameters of R7 that the source leaves open. They are fixed
for one session and chosen when it is created (R174), so a statement about the machine holds for
every value of them unless it names one. -/

namespace Sys2Proof

/-- The open parameters of one session (R7; `92_eei_decisions.md` D6, D8, D15). -/
structure Config where
  /-- MEM_SIZE is `2 ^ memSizeLog2` bytes: a power of two by construction (D6). -/
  memSizeLog2 : Nat
  /-- IMEM_WORDS, the number of 32-bit slots of the instruction store (D8). -/
  imemWords : Nat
  /-- JALR_READS_RS1_AFTER_LINK: the order of JALR's link write and its read of rs1 (R150, D15). -/
  jalrReadsRs1AfterLink : Bool
  deriving DecidableEq, Repr

/-- MEM_SIZE in bytes (R7, R35). -/
def Config.memSize (c : Config) : Nat := 2 ^ c.memSizeLog2

/-- The parameters lie in the ranges of R7: 4 ≤ MEM_SIZE ≤ 2^32, 1 ≤ IMEM_WORDS ≤ 2^30. -/
abbrev Config.Valid (c : Config) : Prop :=
  2 ≤ c.memSizeLog2 ∧ c.memSizeLog2 ≤ 32 ∧ 1 ≤ c.imemWords ∧ c.imemWords ≤ 2 ^ 30

/-- ADDR_LABEL_FORMAT, how the disassembler writes the address of a line (R7, R104, D22). It
belongs to the host's text interface and is no part of the machine's state. -/
structure AddrLabelFormat where
  /-- hexadecimal digits A to F in upper case -/
  upperCase : Bool
  /-- the least number of digits, filled up with leading zeros -/
  minDigits : Nat
  /-- a `0x` before the digits -/
  zeroX : Bool
  deriving DecidableEq, Repr

end Sys2Proof
end

