-- ==== Sys2Proof/Machine/Defaults.lean ====
section
/-! DEFINITION. The values this model names where the source leaves a launch input or a parameter
open: the parameters of the reset state, the registers and the unlisted bytes. The first three are
DESIGN CHOICE and unsafe (log entries 2, 3, 4); only `State.reset` and what memory lists rest on
them, and no statement does but one that says so. -/

namespace Sys2Proof.Machine

/-- The parameters of the reset state: MEM_SIZE = 2^32 and IMEM_WORDS = 2^30, the largest values R7
admits (DESIGN CHOICE, log entry 2), and JALR_READS_RS1_AFTER_LINK at the default R7 states. -/
def defaultConfig : Config :=
  { memSizeLog2 := 32, imemWords := 2 ^ 30, jalrReadsRs1AfterLink := true }

/-- REG_INIT of the reset state: what each of x1 to x31 holds (R34: unspecified; DESIGN CHOICE, log
entry 3). -/
def defaultReg : Word := 0

/-- What a byte of data memory that `State.mem` does not list reads as (R34: unspecified;
DESIGN CHOICE, log entry 4). -/
def unlistedByte : Byte := 0

/-- ADDR_LABEL_FORMAT's default: lowercase, no leading zeros, no `0x` (R7, D22). -/
def defaultAddrLabel : AddrLabelFormat := { upperCase := false, minDigits := 1, zeroX := false }

end Sys2Proof.Machine
end

