-- ==== Sys2Proof/Machine/State.lean ====
section
/-! DEFINITION. The machine state of R14 as plain data, the ways a step can stop, and the state
right after reset (R34, R175). The session's parameters (R7) ride along in `config`; no step
changes them. -/

namespace Sys2Proof.Machine

/-- The run status (R28). `halted` and `faulted` are terminal. -/
inductive Status where
  | running
  | halted
  | faulted (kind : FaultKind)
  deriving DecidableEq, Repr

/-- Data memory: the listed bytes, at strictly rising addresses, none equal to `unlistedByte`. -/
abbrev Memory := List Host.Cell

/-- The instruction store: the loaded slots at strictly rising indices; a slot not listed holds the
marker Unloaded (R36, D11). -/
abbrev InstrStore := List (Nat × Word)

/-- The complete state of one session (R14), and the session's parameters. -/
structure State where
  /-- run status (R28) -/
  status : Status
  /-- program counter: the byte address of the instruction that executes (R22, R23) -/
  pc : Word
  /-- registers x1 to x31, register i in slot i − 1; x0 is not stored (R14, R15) -/
  x : Vector Word 31
  /-- data memory (R35) -/
  mem : Memory
  /-- instruction store (R36) -/
  imem : InstrStore
  /-- MEM_SIZE, IMEM_WORDS and JALR_READS_RS1_AFTER_LINK of this session (R7) -/
  config : Config
  deriving DecidableEq, Repr

/-- Why no step is enabled (R28, R31). An executed instruction raises none of these (R159). A failed
fetch or decode is not one of these either: it is a step, into the status `faulted` (R161). -/
inductive Fault where
  /-- Raised by the step in the status Halted: the run has ended cleanly and no step is enabled
  (R28). Safe: the hardware does not go on either. -/
  | runHalted
  /-- Raised by the step in the status Faulted(kind): the run has failed and no step is enabled
  (R28, R161). Safe: the hardware does not go on either. -/
  | runFaulted (kind : FaultKind)
  deriving DecidableEq, Repr

/-- Why an instruction has no meaning in the model. Every instruction of the table has one, so
nothing raises this. -/
inductive Refusal where
  /-- Raised by an arm of exec whose instruction is not modelled. Safe: nothing can be proved of
  such an instruction's effect. -/
  | notModelled (mnemonic : String)
  deriving DecidableEq, Repr

/-- The machine right after reset (R34, R175): Running at pc 0, no program loaded. REG_INIT,
MEM_INIT and the sizes are the named choices of Machine/Defaults.lean. -/
def State.reset : State :=
  { status := .running
    pc := 0
    x := Vector.replicate 31 defaultReg
    mem := []
    imem := []
    config := defaultConfig }

end Sys2Proof.Machine
end

