-- ==== Sys2Proof/Machine/Ops.lean ====
section
/-! DEFINITION. The named operations on registers, the program counter, data memory, the
instruction store and the run status, which every instruction and the step are written over. All
reads and writes of the state go through them. -/

namespace Sys2Proof.Machine

/-! ### Cells: values by number, at strictly rising numbers -/

/-- The value listed under number `k`. -/
def cellAt {α : Type} (k : Nat) : List (Nat × α) → Option α
  | [] => none
  | c :: rest => if c.1 = k then some c.2 else cellAt k rest

/-- List `v` under number `k`, in its place. -/
def putCell {α : Type} (k : Nat) (v : α) : List (Nat × α) → List (Nat × α)
  | [] => [(k, v)]
  | c :: rest =>
    if k < c.1 then (k, v) :: c :: rest
    else if k = c.1 then (k, v) :: rest
    else c :: putCell k v rest

/-- Unlist number `k`. -/
def dropCell {α : Type} (k : Nat) (cells : List (Nat × α)) : List (Nat × α) :=
  cells.filter fun c => c.1 ≠ k

/-- Numbers strictly rise along the list. -/
abbrev Rising {α : Type} (cells : List (Nat × α)) : Prop := cells.Pairwise fun c d => c.1 < d.1

/-! ### Registers (R15, R16, R17) -/

/-- `x[i]`: 0 for index 0, else what the register holds (R16). -/
def State.readReg (s : State) (i : RegIdx) : Word :=
  if i = 0#5 then 0#32 else s.x.getD (i.toNat - 1) 0#32

/-- `x[i] <- v`: nothing for index 0, else the register holds `v` (R17). -/
def State.writeReg (s : State) (i : RegIdx) (v : Word) : State :=
  if i = 0#5 then s else { s with x := s.x.setIfInBounds (i.toNat - 1) v }

/-! ### Program counter (R24, R25) -/

/-- `pc <- t`; the word is already modulo 2^32 (R24). -/
def State.setPc (s : State) (t : Word) : State := { s with pc := t }

/-- The address after the instruction that executes, modulo 2^32 (R24, R145). -/
def State.pcPlus4 (s : State) : Word := s.pc + 4#32

/-- `pc <- pc + 4` (R145). -/
def State.advance (s : State) : State := s.setPc s.pcPlus4

/-! ### Data memory (R35, R38, R39) -/

/-- The byte at address `a`. -/
def Memory.byteAt (m : Memory) (a : Nat) : Byte := (cellAt a m).getD unlistedByte

/-- Memory with byte `b` at address `a`, in canonical form. -/
def Memory.setByte (m : Memory) (a : Nat) (b : Byte) : Memory :=
  if b = unlistedByte then dropCell a m else putCell a b m

/-- The canonical form: addresses strictly rise, and no entry equals what an unlisted address
reads as. -/
abbrev Memory.wf (m : Memory) : Prop := Rising m ∧ ∀ c ∈ m, c.2 ≠ unlistedByte

/-- The byte that byte `i` of an access at address `a` reaches: every byte address is wrapped
modulo MEM_SIZE on its own (R38, R40, D7). -/
def State.byteAddr (s : State) (a : Word) (i : Nat) : Nat := (a.toNat + i) % s.config.memSize

/-- One byte of data memory, by its address in [0, MEM_SIZE). -/
def State.readByte (s : State) (a : Nat) : Byte := s.mem.byteAt a

/-- One byte of data memory written. -/
def State.writeByte (s : State) (a : Nat) (b : Byte) : State :=
  { s with mem := s.mem.setByte a b }

/-- `MemRead(a, n)`: the `n` bytes from `a`, little-endian, as an unsigned number (R38). -/
def State.memRead (s : State) (a : Word) : Nat → Nat
  | 0 => 0
  | n + 1 => s.memRead a n + (s.readByte (s.byteAddr a n)).toNat * 2 ^ (8 * n)

/-- `MemWrite(a, n, v)`: the low `n` bytes of `v` to `a`, little-endian, from byte 0 up (R39). -/
def State.memWrite (s : State) (a v : Word) : Nat → State
  | 0 => s
  | n + 1 => (s.memWrite a v n).writeByte (s.byteAddr a n) (byteOf v n)

/-! ### Instruction store (R36, R45, R46) -/

/-- `IFetch(pc)`: the word at pc, or the first of the three fetch failures that applies (R45,
R162). It reads the instruction store only and changes nothing. -/
def State.iFetch (s : State) : Except FaultKind Word :=
  if s.pc.toNat % 4 ≠ 0 then .error .fetchMisaligned
  else if s.config.imemWords ≤ s.pc.toNat / 4 then .error .fetchOutOfRange
  else
    match cellAt (s.pc.toNat / 4) s.imem with
    | none => .error .fetchUnloaded
    | some w => .ok w

/-- The slots of a program: word `w_i` in slot `first + i` (R46). -/
def programSlots (first : Nat) : List Word → InstrStore
  | [] => []
  | w :: rest => (first, w) :: programSlots (first + 1) rest

/-- `loadProgram(words)`: the words from slot 0 on and Unloaded in every other slot; refused when
the program is larger than the store (R46, D8). -/
def State.loadProgram (s : State) (words : List Word) : Option State :=
  if words.length ≤ s.config.imemWords then some { s with imem := programSlots 0 words } else none

/-- Place one word where the next step fetches, with what that fetch needs: the status Running and
a pc that is a slot of the store (0 where it is none). -/
def State.placeFetchWord (s : State) (w : Word) : State :=
  let pc := if s.pc.toNat % 4 = 0 ∧ s.pc.toNat / 4 < s.config.imemWords then s.pc else 0#32
  { s with status := .running, pc := pc, imem := putCell (pc.toNat / 4) w s.imem }

/-! ### Run status (R28, R31, R161)

This machine has no trap entry and no trap return (R163, R164). What a failure does is the one
operation `failRun`. -/

/-- The all-zero word was fetched: `status := Halted`, nothing else changes (R31). -/
def State.haltRun (s : State) : State := { s with status := .halted }

/-- A fetch or decode failed: `status := Faulted(kind)`, nothing else changes, so pc still holds the
address of the failing step (R161, R163). -/
def State.failRun (s : State) (k : FaultKind) : State := { s with status := .faulted k }

end Sys2Proof.Machine
end

