-- ==== Sys2Proof/Machine/Operands.lean ====
section
/-! DEFINITION. The operand forms, one shared operation per format and use: what an instruction
reads, where its result goes and which next pc it selects (R19, R131, R145). Sources are read
before the destination is written (R21); JALR alone has an order of its own (R150). -/

namespace Sys2Proof.Machine

/-- What an executed instruction answers: it raises nothing (R159). -/
abbrev Result := Host.Outcome State Fault Refusal

/-- The effective address `u32(x[rs1] + imm)` of a load or store (R131). -/
def State.effectiveAddr (s : State) (rs1 : RegIdx) (imm : Int) : Word := s.readReg rs1 + u32 imm

/-- Write a result to `rd` and go to the next instruction. -/
def State.finish (s : State) (rd : RegIdx) (v : Word) : State := (s.writeReg rd v).advance

/-- Format R: `x[rd] <- alu(op, x[rs1], x[rs2]); pc <- pc + 4` (R110). -/
def aluRegForm (op : AluOp) (rd rs1 rs2 : RegIdx) (s : State) : Result :=
  .next (s.finish rd (alu op (s.readReg rs1) (s.readReg rs2)))

/-- Formats I and I2: the second operand is `u32(imm)` (R109, R110). -/
def aluImmForm (op : AluOp) (rd rs1 : RegIdx) (imm : Int) (s : State) : Result :=
  .next (s.finish rd (alu op (s.readReg rs1) (u32 imm)))

/-- A load: the `n` bytes at the effective address, widened by `widen`, to `rd` (R132, R133). -/
def loadForm (n : Nat) (widen : Nat → Int) (rd rs1 : RegIdx) (imm : Int) (s : State) : Result :=
  .next (s.finish rd (u32 (widen (s.memRead (s.effectiveAddr rs1 imm) n))))

/-- A store: the low `n` bytes of x[rs2] to the effective address (R132, R133). -/
def storeForm (n : Nat) (rs1 rs2 : RegIdx) (imm : Int) (s : State) : Result :=
  .next (s.memWrite (s.effectiveAddr rs1 imm) (s.readReg rs2) n).advance

/-- A branch: the next-pc multiplexer selected by the comparator (R145, R152). -/
def branchForm (c : BranchCond) (rs1 rs2 : RegIdx) (imm : Int) (s : State) : Result :=
  .next (s.setPc (if branchHolds c (s.readReg rs1) (s.readReg rs2) then s.pc + u32 imm
    else s.pcPlus4))

end Sys2Proof.Machine
end

