-- ==== Sys2Proof/Machine/AluInstr.lean ====
section
/-! DEFINITION. The 19 arithmetic and logic instructions (spec/40_alu.md): ten of format R and nine
immediate forms of formats I and I2. -/

namespace Sys2Proof.Machine

/-- ADD (R112). -/
def execAdd (rd rs1 rs2 : RegIdx) (s : State) : Result := aluRegForm .add rd rs1 rs2 s
/-- SUB (R113). -/
def execSub (rd rs1 rs2 : RegIdx) (s : State) : Result := aluRegForm .sub rd rs1 rs2 s
/-- AND (R114). -/
def execAnd (rd rs1 rs2 : RegIdx) (s : State) : Result := aluRegForm .and rd rs1 rs2 s
/-- OR (R115). -/
def execOr (rd rs1 rs2 : RegIdx) (s : State) : Result := aluRegForm .or rd rs1 rs2 s
/-- XOR (R116). -/
def execXor (rd rs1 rs2 : RegIdx) (s : State) : Result := aluRegForm .xor rd rs1 rs2 s
/-- SLT (R117). -/
def execSlt (rd rs1 rs2 : RegIdx) (s : State) : Result := aluRegForm .slt rd rs1 rs2 s
/-- SLTU (R118). -/
def execSltu (rd rs1 rs2 : RegIdx) (s : State) : Result := aluRegForm .sltu rd rs1 rs2 s
/-- SLL (R119). -/
def execSll (rd rs1 rs2 : RegIdx) (s : State) : Result := aluRegForm .sll rd rs1 rs2 s
/-- SRL (R120). -/
def execSrl (rd rs1 rs2 : RegIdx) (s : State) : Result := aluRegForm .srl rd rs1 rs2 s
/-- SRA (R121). -/
def execSra (rd rs1 rs2 : RegIdx) (s : State) : Result := aluRegForm .sra rd rs1 rs2 s

/-- ADDI (R122). -/
def execAddi (rd rs1 : RegIdx) (imm : ImmI) (s : State) : Result := aluImmForm .add rd rs1 imm.val s
/-- SLTI (R123). -/
def execSlti (rd rs1 : RegIdx) (imm : ImmI) (s : State) : Result := aluImmForm .slt rd rs1 imm.val s
/-- SLTIU: the immediate is sign-extended and then compared as unsigned (R109, R124). -/
def execSltiu (rd rs1 : RegIdx) (imm : ImmI) (s : State) : Result :=
  aluImmForm .sltu rd rs1 imm.val s
/-- XORI (R125). -/
def execXori (rd rs1 : RegIdx) (imm : ImmI) (s : State) : Result := aluImmForm .xor rd rs1 imm.val s
/-- ORI (R126). -/
def execOri (rd rs1 : RegIdx) (imm : ImmI) (s : State) : Result := aluImmForm .or rd rs1 imm.val s
/-- ANDI (R127). -/
def execAndi (rd rs1 : RegIdx) (imm : ImmI) (s : State) : Result := aluImmForm .and rd rs1 imm.val s
/-- SLLI (R128). -/
def execSlli (rd rs1 : RegIdx) (imm : Shamt) (s : State) : Result :=
  aluImmForm .sll rd rs1 imm.val s
/-- SRLI (R129). -/
def execSrli (rd rs1 : RegIdx) (imm : Shamt) (s : State) : Result :=
  aluImmForm .srl rd rs1 imm.val s
/-- SRAI (R130). -/
def execSrai (rd rs1 : RegIdx) (imm : Shamt) (s : State) : Result :=
  aluImmForm .sra rd rs1 imm.val s

end Sys2Proof.Machine
end

