-- ==== Sys2Proof/Machine/Control.lean ====
section
/-! DEFINITION. The jumps and branches (spec/43_control_transfer.md). No control transfer checks or
aligns its target (R146); a bad target fails at the fetch that follows. -/

namespace Sys2Proof.Machine

/-- JAL: link `pc + 4` to rd, then `pc <- pc + imm` (R149). -/
def execJal (rd : RegIdx) (imm : ImmJ) (s : State) : Result :=
  .next ((s.writeReg rd s.pcPlus4).setPc (s.pc + u32 imm.val))

/-- JALR: link `pc + 4` to rd, then `pc <- x[rs1] + imm`. Under JALR_READS_RS1_AFTER_LINK, x[rs1]
is read after the link is written, else before (R150, D15). Bit 0 is not cleared (R146, C7). -/
def execJalr (rd rs1 : RegIdx) (imm : ImmI) (s : State) : Result :=
  let linked := s.writeReg rd s.pcPlus4
  let base := if s.config.jalrReadsRs1AfterLink then linked.readReg rs1 else s.readReg rs1
  .next (linked.setPc (base + u32 imm.val))

/-- BEQ (R153). -/
def execBeq (rs1 rs2 : RegIdx) (imm : ImmB) (s : State) : Result := branchForm .eq rs1 rs2 imm.val s
/-- BNE (R154). -/
def execBne (rs1 rs2 : RegIdx) (imm : ImmB) (s : State) : Result := branchForm .ne rs1 rs2 imm.val s
/-- BLT (R155). -/
def execBlt (rs1 rs2 : RegIdx) (imm : ImmB) (s : State) : Result := branchForm .lt rs1 rs2 imm.val s
/-- BGE (R156). -/
def execBge (rs1 rs2 : RegIdx) (imm : ImmB) (s : State) : Result := branchForm .ge rs1 rs2 imm.val s
/-- BLTU (R157). -/
def execBltu (rs1 rs2 : RegIdx) (imm : ImmB) (s : State) : Result :=
  branchForm .ltu rs1 rs2 imm.val s
/-- BGEU (R158). -/
def execBgeu (rs1 rs2 : RegIdx) (imm : ImmB) (s : State) : Result :=
  branchForm .geu rs1 rs2 imm.val s

end Sys2Proof.Machine
end

