-- ==== Sys2Proof/Machine/LoadStore.lean ====
section
/-! DEFINITION. The five loads and three stores (spec/41_load_store.md). A data address never
faults and needs no alignment (R40, R43). -/

namespace Sys2Proof.Machine

/-- LB: one byte, sign-extended (R134). -/
def execLb (rd rs1 : RegIdx) (imm : ImmI) (s : State) : Result :=
  loadForm 1 (sextN 8) rd rs1 imm.val s
/-- LH: two bytes, sign-extended (R135). -/
def execLh (rd rs1 : RegIdx) (imm : ImmI) (s : State) : Result :=
  loadForm 2 (sextN 16) rd rs1 imm.val s
/-- LW: four bytes (R136). -/
def execLw (rd rs1 : RegIdx) (imm : ImmI) (s : State) : Result :=
  loadForm 4 Int.ofNat rd rs1 imm.val s
/-- LBU: one byte, zero-extended (R137). -/
def execLbu (rd rs1 : RegIdx) (imm : ImmI) (s : State) : Result :=
  loadForm 1 Int.ofNat rd rs1 imm.val s
/-- LHU: two bytes, zero-extended (R138). -/
def execLhu (rd rs1 : RegIdx) (imm : ImmI) (s : State) : Result :=
  loadForm 2 Int.ofNat rd rs1 imm.val s
/-- SB: one byte (R139). -/
def execSb (rs1 rs2 : RegIdx) (imm : ImmI) (s : State) : Result := storeForm 1 rs1 rs2 imm.val s
/-- SH: two bytes (R140). -/
def execSh (rs1 rs2 : RegIdx) (imm : ImmI) (s : State) : Result := storeForm 2 rs1 rs2 imm.val s
/-- SW: four bytes (R141). -/
def execSw (rs1 rs2 : RegIdx) (imm : ImmI) (s : State) : Result := storeForm 4 rs1 rs2 imm.val s

end Sys2Proof.Machine
end

