-- ==== Sys2Proof/Machine/UpperImm.lean ====
section
/-! DEFINITION. The upper-immediate instructions (spec/42_upper_immediate.md). Their immediate is
the decoded one, already multiplied by 4096 (R142). -/

namespace Sys2Proof.Machine

/-- LUI: `x[rd] <- imm; pc <- pc + 4` (R143). -/
def execLui (rd : RegIdx) (imm : ImmU) (s : State) : Result := .next (s.finish rd (u32 imm.val))

/-- AUIPC: `x[rd] <- u32(pc + imm); pc <- pc + 4`, pc its own address (R144). -/
def execAuipc (rd : RegIdx) (imm : ImmU) (s : State) : Result :=
  .next (s.finish rd (s.pc + u32 imm.val))

end Sys2Proof.Machine
end

