-- ==== Sys2Proof/Machine/Engine.lean ====
section
/-! DEFINITION. The execution engine's step (R31) and the order of its outcomes (R162). -/

namespace Sys2Proof.Machine

/-- Decode the fetched word and execute it; a word that does not decode ends the run (R31 steps 3
and 4, R161). -/
def decodeAndExec (s : State) (w : Word) : Result :=
  match decodeBinary w with
  | .error k => .next (s.failRun k)
  | .ok i => exec i s

/-- One step of a Running machine: fetch, halt sentinel, decode, dispatch (R31). -/
def runningStep (s : State) : Result :=
  match s.iFetch with
  | .error k => .next (s.failRun k)
  | .ok w => if w = 0#32 then .next s.haltRun else decodeAndExec s w

/-- One step, enabled in the status Running only (R28, R31). -/
def engineStep (s : State) : Result :=
  match s.status with
  | .running => runningStep s
  | .halted => .fault .runHalted
  | .faulted k => .fault (.runFaulted k)

end Sys2Proof.Machine
end

