-- ==== Sys2Proof/Machine/Step.lean ====
section
/-! DEFINITION. The step of the machine, and where its next instruction stands. -/

namespace Sys2Proof.Machine

/-- One step (R31). -/
def step (s : State) : Host.Outcome State Fault Refusal := engineStep s

/-- `s` with the opcode table's word `w` of `nbits` bits where `step` fetches its next instruction:
the slot of the instruction store that pc selects (R45). It stands for the load of a program from
outside the machine (DEDUCED, safe: log entry 8). -/
def State.withFetchWord (s : State) (nbits w : Nat) : State :=
  s.placeFetchWord (BitVec.ofNat 32 (w % 2 ^ nbits))

end Sys2Proof.Machine
end

