-- ==== Sys2Proof/Machine/OperandParser.lean ====
section
/-! DEFINITION. The operand parser of the text side (R90 to R93): registers and immediates. A
failure is an error kind (R159) and never reaches the machine (R160). -/

namespace Sys2Proof

/-! ### Characters and lines -/

/-- White space: space, tab, line feed, carriage return, vertical tab, form feed
(DESIGN CHOICE, unsafe: log entry 11). -/
def isSpace (c : Char) : Bool :=
  c == ' ' || c == '\t' || c == '\n' || c == '\r' || c == '\x0b' || c == '\x0c'

/-- A line without the white space around it (R90, R94, R95). -/
def trim (t : Text) : Text := ((t.dropWhile isSpace).reverse.dropWhile isSpace).reverse

/-- A token in lower case, for the comparisons that ignore case (R77, R90). -/
def lower (t : Text) : Text := t.map Char.toLower

/-- The value of a decimal digit. -/
def decDigit (c : Char) : Option Nat :=
  if 48 ≤ c.toNat ∧ c.toNat ≤ 57 then some (c.toNat - 48) else none

/-- The value of a hexadecimal digit of either case. -/
def hexDigit (c : Char) : Option Nat :=
  if 48 ≤ c.toNat ∧ c.toNat ≤ 57 then some (c.toNat - 48)
  else if 97 ≤ c.toNat ∧ c.toNat ≤ 102 then some (c.toNat - 87)
  else if 65 ≤ c.toNat ∧ c.toNat ≤ 70 then some (c.toNat - 55)
  else none

/-- The number whose digits go on from `acc`; none where a character is no digit. -/
def digitsFrom (base : Nat) (digit : Char → Option Nat) (acc : Nat) : Text → Option Nat
  | [] => some acc
  | c :: rest =>
    match digit c with
    | none => none
    | some d => digitsFrom base digit (acc * base + d) rest

/-- The number of one or more digits. -/
def number (base : Nat) (digit : Char → Option Nat) (t : Text) : Option Nat :=
  if t.isEmpty then none else digitsFrom base digit 0 t

/-! ### Registers (R90, R91) -/

/-- The ABI names of the registers (R91, D18). -/
def abiTable : List (Text × RegIdx) :=
  [("zero".toList, 0), ("ra".toList, 1), ("sp".toList, 2), ("gp".toList, 3), ("tp".toList, 4),
   ("t0".toList, 5), ("t1".toList, 6), ("t2".toList, 7), ("s0".toList, 8), ("fp".toList, 8),
   ("s1".toList, 9), ("a0".toList, 10), ("a1".toList, 11), ("a2".toList, 12), ("a3".toList, 13),
   ("a4".toList, 14), ("a5".toList, 15), ("a6".toList, 16), ("a7".toList, 17),
   ("s2".toList, 18), ("s3".toList, 19), ("s4".toList, 20), ("s5".toList, 21),
   ("s6".toList, 22), ("s7".toList, 23), ("s8".toList, 24), ("s9".toList, 25),
   ("s10".toList, 26), ("s11".toList, 27), ("t3".toList, 28), ("t4".toList, 29),
   ("t5".toList, 30), ("t6".toList, 31)]

/-- A positional name `x<N>`, N in [0, 31], leading zeros allowed (R90). -/
def positionalReg (t : Text) : Option RegIdx :=
  match t with
  | [] => none
  | c :: ds =>
    if c = 'x' then
      match number 10 decDigit ds with
      | some n => if n ≤ 31 then some (BitVec.ofNat 5 n) else none
      | none => none
    else none

/-- `parseRegister` (R90). -/
def parseRegister (token : Text) : Except ErrorKind RegIdx :=
  let t := lower (trim token)
  match positionalReg t with
  | some i => .ok i
  | none =>
    match abiTable.lookup t with
    | some i => .ok i
    | none => .error .unknownRegister

/-! ### Immediates (R92, R93) -/

/-- An unsigned literal: decimal digits, or `0x` or `0X` and hexadecimal digits (R92). -/
def magnitude (t : Text) : Option Nat :=
  match t with
  | c :: d :: ds =>
    if c = '0' ∧ (d = 'x' ∨ d = 'X') then number 16 hexDigit ds else number 10 decDigit t
  | _ => number 10 decDigit t

/-- A literal with an optional sign (R92, D19). -/
def literalValue (t : Text) : Option Int :=
  match t with
  | [] => none
  | c :: rest =>
    if c = '-' then (magnitude rest).map fun n => -(n : Int)
    else if c = '+' then (magnitude rest).map Int.ofNat
    else (magnitude t).map Int.ofNat

/-- `parseImmediate(literal, widthBits, loZeroBits, signed)` (R93); the alignment check comes before
the range check (D20). -/
def parseImmediate (lit : Text) (width loZero : Nat) (signed : Bool) : Except ErrorKind Int :=
  match literalValue lit with
  | none => .error .malformedOperands
  | some v =>
    if v % 2 ^ loZero ≠ 0 then .error .immediateMisaligned
    else if ¬signed ∧ (v < 0 ∨ 2 ^ width ≤ v) then .error .immediateOutOfRange
    else if signed ∧ (v < -2 ^ (width - 1) ∨ 2 ^ (width - 1) - 1 < v) then
      .error .immediateOutOfRange
    else .ok v

end Sys2Proof
end

