-- ==== Sys2Proof/Machine/TextCodec.lean ====
section
/-! DEFINITION. The text side of the codec: text to structured instruction (R94 to R97) and back
(R98 to R102). It is the toolchain of this hardware (R4) and touches no machine state. -/

namespace Sys2Proof

/-! ### Structured instructions and records of field values (R58, R66) -/

/-- An integer as an immediate of format I or S, where it is one. -/
def ImmI.ofInt? (v : Int) : Option ImmI := if h : ImmI.Valid v then some ⟨v, h⟩ else none
/-- An integer as an immediate of format B, where it is one. -/
def ImmB.ofInt? (v : Int) : Option ImmB := if h : ImmB.Valid v then some ⟨v, h⟩ else none
/-- An integer as an immediate of format J, where it is one. -/
def ImmJ.ofInt? (v : Int) : Option ImmJ := if h : ImmJ.Valid v then some ⟨v, h⟩ else none
/-- An integer as an immediate of format U, where it is one. -/
def ImmU.ofInt? (v : Int) : Option ImmU :=
  if h : 0 ≤ v ∧ ImmU.Valid v.toNat then some ⟨v.toNat, h.2⟩ else none
/-- An integer as a shift amount of format I2, where it is one. -/
def Shamt.ofInt? (v : Int) : Option Shamt :=
  if h : 0 ≤ v ∧ Shamt.Valid v.toNat then some ⟨v.toNat, h.2⟩ else none

/-- The structured instruction of a mnemonic and the fields of its format; none for a record that is
not valid (R58, R66). -/
def instrOf (m : Mnemonic) (f : Fields) : Option Instr :=
  match m with
  | .lui => (ImmU.ofInt? f.imm).map (.lui f.rd)
  | .auipc => (ImmU.ofInt? f.imm).map (.auipc f.rd)
  | .jal => (ImmJ.ofInt? f.imm).map (.jal f.rd)
  | .jalr => (ImmI.ofInt? f.imm).map (.jalr f.rd f.rs1)
  | .beq => (ImmB.ofInt? f.imm).map (.beq f.rs1 f.rs2)
  | .bne => (ImmB.ofInt? f.imm).map (.bne f.rs1 f.rs2)
  | .blt => (ImmB.ofInt? f.imm).map (.blt f.rs1 f.rs2)
  | .bge => (ImmB.ofInt? f.imm).map (.bge f.rs1 f.rs2)
  | .bltu => (ImmB.ofInt? f.imm).map (.bltu f.rs1 f.rs2)
  | .bgeu => (ImmB.ofInt? f.imm).map (.bgeu f.rs1 f.rs2)
  | .lb => (ImmI.ofInt? f.imm).map (.lb f.rd f.rs1)
  | .lh => (ImmI.ofInt? f.imm).map (.lh f.rd f.rs1)
  | .lw => (ImmI.ofInt? f.imm).map (.lw f.rd f.rs1)
  | .lbu => (ImmI.ofInt? f.imm).map (.lbu f.rd f.rs1)
  | .lhu => (ImmI.ofInt? f.imm).map (.lhu f.rd f.rs1)
  | .sb => (ImmI.ofInt? f.imm).map (.sb f.rs1 f.rs2)
  | .sh => (ImmI.ofInt? f.imm).map (.sh f.rs1 f.rs2)
  | .sw => (ImmI.ofInt? f.imm).map (.sw f.rs1 f.rs2)
  | .addi => (ImmI.ofInt? f.imm).map (.addi f.rd f.rs1)
  | .slti => (ImmI.ofInt? f.imm).map (.slti f.rd f.rs1)
  | .sltiu => (ImmI.ofInt? f.imm).map (.sltiu f.rd f.rs1)
  | .xori => (ImmI.ofInt? f.imm).map (.xori f.rd f.rs1)
  | .ori => (ImmI.ofInt? f.imm).map (.ori f.rd f.rs1)
  | .andi => (ImmI.ofInt? f.imm).map (.andi f.rd f.rs1)
  | .slli => (Shamt.ofInt? f.imm).map (.slli f.rd f.rs1)
  | .srli => (Shamt.ofInt? f.imm).map (.srli f.rd f.rs1)
  | .srai => (Shamt.ofInt? f.imm).map (.srai f.rd f.rs1)
  | .add => some (.add f.rd f.rs1 f.rs2)
  | .sub => some (.sub f.rd f.rs1 f.rs2)
  | .sll => some (.sll f.rd f.rs1 f.rs2)
  | .slt => some (.slt f.rd f.rs1 f.rs2)
  | .sltu => some (.sltu f.rd f.rs1 f.rs2)
  | .xor => some (.xor f.rd f.rs1 f.rs2)
  | .srl => some (.srl f.rd f.rs1 f.rs2)
  | .sra => some (.sra f.rd f.rs1 f.rs2)
  | .or => some (.or f.rd f.rs1 f.rs2)
  | .and => some (.and f.rd f.rs1 f.rs2)

/-- The fields a structured instruction carries. -/
def Instr.fields : Instr → Fields
  | .lui rd imm | .auipc rd imm => { rd := rd, imm := imm.val }
  | .jal rd imm => { rd := rd, imm := imm.val }
  | .beq rs1 rs2 imm | .bne rs1 rs2 imm | .blt rs1 rs2 imm | .bge rs1 rs2 imm
  | .bltu rs1 rs2 imm | .bgeu rs1 rs2 imm
  | .sb rs1 rs2 imm | .sh rs1 rs2 imm | .sw rs1 rs2 imm =>
    { rs1 := rs1, rs2 := rs2, imm := imm.val }
  | .jalr rd rs1 imm | .lb rd rs1 imm | .lh rd rs1 imm | .lw rd rs1 imm | .lbu rd rs1 imm
  | .lhu rd rs1 imm | .addi rd rs1 imm | .slti rd rs1 imm | .sltiu rd rs1 imm
  | .xori rd rs1 imm | .ori rd rs1 imm | .andi rd rs1 imm =>
    { rd := rd, rs1 := rs1, imm := imm.val }
  | .slli rd rs1 imm | .srli rd rs1 imm | .srai rd rs1 imm =>
    { rd := rd, rs1 := rs1, imm := imm.val }
  | .add rd rs1 rs2 | .sub rd rs1 rs2 | .sll rd rs1 rs2 | .slt rd rs1 rs2 | .sltu rd rs1 rs2
  | .xor rd rs1 rs2 | .srl rd rs1 rs2 | .sra rd rs1 rs2 | .or rd rs1 rs2 | .and rd rs1 rs2 =>
    { rd := rd, rs1 := rs1, rs2 := rs2 }

/-- The format I instructions written in the memory form `rd, imm(rs1)` (R95): the loads, JALR. -/
def Mnemonic.usesMemoryForm : Mnemonic → Bool
  | .lb | .lh | .lw | .lbu | .lhu | .jalr => true
  | .lui | .auipc | .jal | .beq | .bne | .blt | .bge | .bltu | .bgeu | .sb | .sh | .sw
  | .addi | .slti | .sltiu | .xori | .ori | .andi | .slli | .srli | .srai
  | .add | .sub | .sll | .slt | .sltu | .xor | .srl | .sra | .or | .and => false

/-! ### decodeText (R94, R95) -/

/-- The line before its comment: the earliest of `;`, `#` and `//` begins one (R94). -/
def stripComment : Text → Text
  | [] => []
  | c :: rest =>
    if c = ';' ∨ c = '#' ∨ (c = '/' ∧ rest.head? = some '/') then [] else c :: stripComment rest

/-- `specFor` of a text mnemonic, whatever its case (R77). -/
def specForText (token : Text) : Except ErrorKind Mnemonic :=
  match allMnemonics.find? fun m => m.name == lower token with
  | some m => .ok m
  | none => .error .unknownMnemonic

/-- The pieces of an operand string between its commas (R95). -/
def splitCommas : Text → List Text
  | [] => [[]]
  | c :: rest =>
    match splitCommas rest with
    | [] => [[c]]
    | piece :: more => if c = ',' then [] :: piece :: more else (c :: piece) :: more

/-- The immediate of a format, by the parseImmediate parameters of R95; the U value is stored times
4096. Format R has none. -/
def parseFormatImm (f : Format) (lit : Text) : Except ErrorKind Int :=
  match f with
  | .r => .error .malformedOperands
  | .i => parseImmediate lit 12 0 true
  | .i2 => parseImmediate lit 5 0 false
  | .s => parseImmediate lit 12 0 true
  | .b => parseImmediate lit 13 1 true
  | .u => (parseImmediate lit 20 0 false).map (· * 4096)
  | .j => parseImmediate lit 21 1 true

/-- The shape `imm(rs1)` of a memory-form piece: what stands before its `(`, and between `(` and the
`)` that ends it (R95). Another parenthesis inside is no such shape (DESIGN
CHOICE, unsafe: log entry 12). -/
def splitMemoryForm (piece : Text) : Option (Text × Text) :=
  match (piece.dropWhile (· ≠ '(')).drop 1 with
  | [] => none
  | rest =>
    let inner := rest.dropLast
    if rest.getLast? = some ')' ∧ inner.all (fun c => c ≠ '(' ∧ c ≠ ')') then
      some (piece.takeWhile (· ≠ '('), inner)
    else none

/-- A memory-form piece: its immediate, then its register, each with white space around it
allowed (R95). -/
def parseMemoryForm (f : Format) (piece : Text) : Except ErrorKind (Int × RegIdx) :=
  match splitMemoryForm piece with
  | none => .error .malformedOperands
  | some (lit, reg) => do
    let imm ← parseFormatImm f (trim lit)
    let rs1 ← parseRegister reg
    return (imm, rs1)

/-- The operands `rd, rs1, rs2`. -/
def parseRegRegReg (ops : List Text) : Except ErrorKind Fields :=
  match ops with
  | [a, b, c] => do
    let rd ← parseRegister a
    let rs1 ← parseRegister b
    let rs2 ← parseRegister c
    return { rd := rd, rs1 := rs1, rs2 := rs2 }
  | _ => .error .malformedOperands

/-- The operands `rd, rs1, imm`. -/
def parseRegRegImm (f : Format) (ops : List Text) : Except ErrorKind Fields :=
  match ops with
  | [a, b, c] => do
    let rd ← parseRegister a
    let rs1 ← parseRegister b
    let imm ← parseFormatImm f c
    return { rd := rd, rs1 := rs1, imm := imm }
  | _ => .error .malformedOperands

/-- The operands `rs1, rs2, imm` of a branch. -/
def parseBranchOps (f : Format) (ops : List Text) : Except ErrorKind Fields :=
  match ops with
  | [a, b, c] => do
    let rs1 ← parseRegister a
    let rs2 ← parseRegister b
    let imm ← parseFormatImm f c
    return { rs1 := rs1, rs2 := rs2, imm := imm }
  | _ => .error .malformedOperands

/-- The operands `rd, imm(rs1)`. -/
def parseRegMem (f : Format) (ops : List Text) : Except ErrorKind Fields :=
  match ops with
  | [a, b] => do
    let rd ← parseRegister a
    let (imm, rs1) ← parseMemoryForm f b
    return { rd := rd, rs1 := rs1, imm := imm }
  | _ => .error .malformedOperands

/-- The operands `rs2, imm(rs1)` of a store. -/
def parseStoreOps (f : Format) (ops : List Text) : Except ErrorKind Fields :=
  match ops with
  | [a, b] => do
    let rs2 ← parseRegister a
    let (imm, rs1) ← parseMemoryForm f b
    return { rs1 := rs1, rs2 := rs2, imm := imm }
  | _ => .error .malformedOperands

/-- The operands `rd, imm`. -/
def parseRegImm (f : Format) (ops : List Text) : Except ErrorKind Fields :=
  match ops with
  | [a, b] => do
    let rd ← parseRegister a
    let imm ← parseFormatImm f b
    return { rd := rd, imm := imm }
  | _ => .error .malformedOperands

/-- The operand grammar of a mnemonic's format (R95). The count is checked first, then the operands
from left to right (DESIGN CHOICE, unsafe: log entry 12). -/
def parseOperands (m : Mnemonic) (ops : List Text) : Except ErrorKind Fields :=
  match (specFor m).format with
  | .r => parseRegRegReg ops
  | .i => if m.usesMemoryForm then parseRegMem .i ops else parseRegRegImm .i ops
  | .i2 => parseRegRegImm .i2 ops
  | .s => parseStoreOps .s ops
  | .b => parseBranchOps .b ops
  | .u => parseRegImm .u ops
  | .j => parseRegImm .j ops

/-- The record as a structured instruction. The operand parser has refused every record that is none
before this (R82, R93), so this failure is never seen (Obligations.AcceptedTextIsValid). -/
def structured (m : Mnemonic) (f : Fields) : Except ErrorKind Instr :=
  match instrOf m f with
  | some i => .ok i
  | none => .error .immediateOutOfRange

/-- `decodeText`: the comment removed, the mnemonic before the first white space, the operands
split at commas (R94, R95, D27). -/
def decodeText (line : Text) : Except ErrorKind Instr := do
  let t := trim (stripComment line)
  let m ← specForText (t.takeWhile fun c => !isSpace c)
  let fields ← parseOperands m ((splitCommas (t.dropWhile fun c => !isSpace c)).map trim)
  structured m fields

/-! ### encodeText (R98 to R101) -/

/-- The character of a digit below 16, in lower or upper case. -/
def digitChar (upper : Bool) (d : Nat) : Char :=
  if d < 10 then Char.ofNat (48 + d) else if upper then Char.ofNat (55 + d) else Char.ofNat (87 + d)

/-- The digits of `n` before those of `acc`; `fuel` bounds their number. -/
def digitsLoop (base : Nat) (upper : Bool) : Nat → Nat → Text → Text
  | 0, _, acc => acc
  | fuel + 1, n, acc =>
    if n < base then digitChar upper n :: acc
    else digitsLoop base upper fuel (n / base) (digitChar upper (n % base) :: acc)

/-- The digits of a number without leading zeros. -/
def digits (base : Nat) (upper : Bool) (n : Nat) : Text := digitsLoop base upper (n + 1) n []

/-- `N(v)`: decimal below the magnitude 1000, else `0x` and lowercase hexadecimal, the sign before
it (R100, D21). -/
def numberText (v : Int) : Text :=
  (if v < 0 then ['-'] else []) ++
    (if v.natAbs < 1000 then digits 10 false v.natAbs else '0' :: 'x' :: digits 16 false v.natAbs)

/-- Registers print as `x<N>` (R99). -/
def regText (i : RegIdx) : Text := 'x' :: digits 10 false i.toNat

/-- MNEMONIC_COLUMN (R7, R98). -/
def mnemonicColumn : Nat := 8

/-- The mnemonic filled up with spaces to the column (R98, C3). -/
def padMnemonic (m : Mnemonic) : Text :=
  m.name ++ List.replicate (mnemonicColumn - m.name.length) ' '

/-- Operands separated by a comma and one space (R98). -/
def commaJoin : List Text → Text
  | [] => []
  | [t] => t
  | t :: rest => t ++ ',' :: ' ' :: commaJoin rest

/-- The memory form `imm(rs1)` (R101). -/
def memText (imm : Int) (rs1 : RegIdx) : Text := numberText imm ++ '(' :: regText rs1 ++ [')']

/-- The operands of a mnemonic's format as text (R101). -/
def operandTexts (m : Mnemonic) (f : Fields) : List Text :=
  match (specFor m).format with
  | .r => [regText f.rd, regText f.rs1, regText f.rs2]
  | .i =>
    if m.usesMemoryForm then [regText f.rd, memText f.imm f.rs1]
    else [regText f.rd, regText f.rs1, numberText f.imm]
  | .i2 => [regText f.rd, regText f.rs1, numberText f.imm]
  | .s => [regText f.rs2, memText f.imm f.rs1]
  | .b => [regText f.rs1, regText f.rs2, numberText f.imm]
  | .u => [regText f.rd, numberText (f.imm / 4096)]
  | .j => [regText f.rd, numberText f.imm]

/-- `encodeText`: the canonical line of a valid structured instruction (R98, R101, D26). -/
def encodeText (i : Instr) : Text :=
  padMnemonic i.mnemonic ++ commaJoin (operandTexts i.mnemonic i.fields)

end Sys2Proof
end

