-- ==== Sys2Proof/Machine/HostText.lean ====
section
/-! DEFINITION. The two line-oriented transforms of the host interface: assembleText (R103) and
disassembleText (R104). They use no machine state, and a failure stays in its line (R105). -/

namespace Sys2Proof

/-- The literal line of a failure (R105). -/
def errorLine : Text := "ERROR".toList

/-- Two uppercase hexadecimal digits (R103). -/
def hexByte (b : Byte) : Text := [digitChar true (b.toNat / 16), digitChar true (b.toNat % 16)]

/-- The display of a word: its four bytes, least significant first (R42, R103). -/
def displayWord (w : Word) : Text :=
  hexByte (byteOf w 0) ++ ' ' :: hexByte (byteOf w 1) ++ ' ' :: hexByte (byteOf w 2) ++
    ' ' :: hexByte (byteOf w 3)

/-- The text after the last `:`, or all of it where it has none (R103, C8, D24). -/
def afterLastColon (t : Text) : Text := (t.reverse.takeWhile (· ≠ ':')).reverse

/-- The word of a line of assembly. -/
def assembleWord (t : Text) : Except ErrorKind Word := (decodeText t).map encodeBinary

/-- One line of assembleText: comment, then label prefix, then the instruction (R103, D24). -/
def assembleLine (line : Text) : Text :=
  let t := trim (afterLastColon (stripComment line))
  if t.isEmpty then []
  else
    match assembleWord t with
    | .ok w => displayWord w
    | .error _ => errorLine

/-- `assembleText` (R103). -/
def assembleText (lines : List Text) : List Text := lines.map assembleLine

/-- `hexaddr`, by ADDR_LABEL_FORMAT (R104, D22). -/
def hexAddr (fmt : AddrLabelFormat) (addr : Nat) : Text :=
  let ds := digits 16 fmt.upperCase addr
  (if fmt.zeroX then ['0', 'x'] else []) ++ List.replicate (fmt.minDigits - ds.length) '0' ++ ds

/-- The address label of a line (R104). -/
def addrLabel (fmt : AddrLabelFormat) (addr : Nat) : Text := '_' :: hexAddr fmt addr ++ [':', ' ']

/-- A line without its white space and underscores (R104). -/
def cleanHexLine (line : Text) : Text := line.filter fun ch => !isSpace ch && ch != '_'

/-- The word of a cleaned line: exactly 8 hexadecimal digits, its byte pairs least significant
first (R104). -/
def parseHexLine (c : Text) : Except ErrorKind Word :=
  match c.mapM hexDigit with
  | some [h0, l0, h1, l1, h2, l2, h3, l3] =>
    .ok (wordOfBytes (BitVec.ofNat 8 (h0 * 16 + l0)) (BitVec.ofNat 8 (h1 * 16 + l1))
      (BitVec.ofNat 8 (h2 * 16 + l2)) (BitVec.ofNat 8 (h3 * 16 + l3)))
  | _ => .error .malformedHexLine

/-- The instruction a cleaned line disassembles to, or the kind it fails with. -/
def disassembleWord (c : Text) : Except ErrorKind Instr :=
  match parseHexLine c with
  | .error k => .error k
  | .ok w =>
    match decodeBinary w with
    | .error k => .error k.toErrorKind
    | .ok i => .ok i

/-- What a cleaned line prints after its label. -/
def disassembleBody (c : Text) : Text :=
  match disassembleWord c with
  | .ok i => encodeText i
  | .error _ => errorLine

/-- The lines from address `addr` on: a blank line has no label and leaves the address, every other
line has one and advances it by 4 (R104, D23). -/
def disassembleFrom (fmt : AddrLabelFormat) : Nat → List Text → List Text
  | _, [] => []
  | addr, line :: rest =>
    let c := cleanHexLine line
    if c.isEmpty then [] :: disassembleFrom fmt addr rest
    else (addrLabel fmt addr ++ disassembleBody c) :: disassembleFrom fmt (addr + 4) rest

/-- `disassembleText` (R104). -/
def disassembleText (fmt : AddrLabelFormat) (lines : List Text) : List Text :=
  disassembleFrom fmt 0 lines

end Sys2Proof
end

