-- ==== Sys2Proof/Machine/Session.lean ====
section
/-! DEFINITION. The host's session interface (R174, R175): creating a session from the launch
inputs, and running it (R33, R173). Single-stepping is `step`; reading the state is its fields,
`State.readReg`, `State.readByte` and `State.memRead`. The host writes nothing between steps
(D16). -/

namespace Sys2Proof.Machine

/-- What the host supplies to create a session (R174): the parameters, the program words, REG_INIT
(x1 to x31) and MEM_INIT, as any list of bytes at addresses; a byte it does not list holds
`unlistedByte`. -/
structure Launch where
  config : Config
  program : List Word
  regInit : Vector Word 31
  memInit : List Host.Cell
  deriving DecidableEq, Repr

/-- Data memory holding the given bytes, later ones over earlier ones, addresses modulo MEM_SIZE
(R35, R40). -/
def Launch.memory (l : Launch) : Memory :=
  l.memInit.foldl (fun m c => m.setByte (c.1 % l.config.memSize) c.2) []

/-- The state before the program is loaded: Running, pc 0, registers and memory from the launch
inputs (R34, R175). -/
def Launch.initialState (l : Launch) : State :=
  { status := .running, pc := 0, x := l.regInit, mem := l.memory, imem := [], config := l.config }

/-- Create a session and load its program; refused when the program is larger than the store
(R46, R175, D8). -/
def createSession (l : Launch) : Option State := l.initialState.loadProgram l.program

/-- A run bounded by the host to `n` steps (R173): it stops earlier where no step is enabled, and
answers the state it stopped in (R33). -/
def runFor : Nat → State → State
  | 0, s => s
  | n + 1, s =>
    match step s with
    | .next t => runFor n t
    | .fault _ => s
    | .refused _ => s

/-- The run has ended (R33): no step is enabled. -/
def State.ended (s : State) : Bool := s.status != .running

end Sys2Proof.Machine
end

