-- ==== Sys2Proof/Safety.lean ====
section
/-! DEFINITION. What counts as a legal state and as a good end of a run, in the terms the claims
use. -/

namespace Sys2Proof.Machine

/-- The status the fetch and the decoder alone would give a step at this pc: Halted at the all-zero
word, Faulted where they fail, else Running (R31, R162). -/
def State.stopStatus (s : State) : Status :=
  match s.iFetch with
  | .error k => .faulted k
  | .ok w =>
    if w = 0#32 then .halted
    else
      match decodeBinary w with
      | .error k => .faulted k
      | .ok _ => .running

/-- A stopped machine stands at the instruction that stopped it: the Faulted state is precise and
pc holds the failing address (R161, R163); a Halted machine stands at the halt word (R31). -/
abbrev State.StopJustified (s : State) : Prop := s.status = .running ∨ s.status = s.stopStatus

/-- A legal state: parameters in range (R7), data memory in canonical form and inside MEM_SIZE
(R35), instruction store in canonical form and inside IMEM_WORDS (R36), and a stop that the pc
explains. -/
abbrev State.Inv (s : State) : Prop :=
  s.config.Valid ∧
  s.mem.wf ∧ (∀ c ∈ s.mem, c.1 < s.config.memSize) ∧
  Rising s.imem ∧ (∀ c ∈ s.imem, c.1 < s.config.imemWords) ∧
  s.StopJustified

/-- The run ended cleanly, at a halt word. A Faulted end is never a successful one (R161). -/
abbrev State.EndedCleanly (s : State) : Prop := s.status = .halted

end Sys2Proof.Machine
end

