-- ==== Sys2Proof/Certificates/Slice0/Obligations.lean ====
section
/-! DEFINITION. The statements for the provers. Each cites, in its docstring, the numbered rules of
spec/ it states. First the shapes they share, then the statements family by family. -/

open Sys2Proof Sys2Proof.Machine

namespace Sys2Proof.Claims

/-- After an instruction that writes `v` to `rd` and goes to `pc`: the register (where it is not
x0), the program counter, and the frame: every other register, x0 reading 0, every byte of memory,
the instruction store, the run status and the parameters. -/
def WritesReg (s t : State) (rd : RegIdx) (v pc : Word) : Prop :=
  t.pc = pc ∧ (rd ≠ 0#5 → t.readReg rd = v) ∧ t.readReg 0#5 = 0#32 ∧
  (∀ j, j ≠ rd → t.readReg j = s.readReg j) ∧ (∀ a, t.readByte a = s.readByte a) ∧
  t.mem = s.mem ∧ t.imem = s.imem ∧ t.status = s.status ∧ t.config = s.config

/-- The instruction answers a next state, which writes `v` to `rd` and goes to `pc`. -/
def Executes (i : Instr) (s : State) (rd : RegIdx) (v pc : Word) : Prop :=
  ∃ t, exec i s = .next t ∧ WritesReg s t rd v pc

/-- Byte `k` of an access at address `a`: the address is wrapped byte by byte (R38, R40). -/
def wrapped (s : State) (a : Word) (k : Nat) : Nat := (a.toNat + k) % s.config.memSize

/-- The instruction answers a next state, which holds the low `n` bytes of `v` at `a`, least
significant first, and is otherwise the old state at pc + 4. -/
def ExecutesStore (i : Instr) (s : State) (a : Word) (n : Nat) (v : Word) : Prop :=
  ∃ t, exec i s = .next t ∧ t.pc = s.pc + 4 ∧
    (∀ k < n, t.readByte (wrapped s a k) = BitVec.ofNat 8 (v.toNat / 2 ^ (8 * k))) ∧
    (∀ b, (∀ k < n, b ≠ wrapped s a k) → t.readByte b = s.readByte b) ∧
    (∀ j, t.readReg j = s.readReg j) ∧
    t.imem = s.imem ∧ t.status = s.status ∧ t.config = s.config

/-- The effective address of a load or store, over integers (R131). -/
def effAddr (s : State) (rs1 : RegIdx) (imm : Int) : Word := u32 ((s.readReg rs1).toNat + imm)

/-- Two's-complement reading of an n-bit number, over integers (R9: sext). -/
def sextOf (n u : Nat) : Int := if u < 2 ^ (n - 1) then (u : Int) else (u : Int) - 2 ^ n

/-- Bits [hi:lo] of a word as a number, over integers (R9). -/
def bits (w : Word) (hi lo : Nat) : Nat := w.toNat / 2 ^ lo % 2 ^ (hi + 1 - lo)

/-- The register-register instruction of an ALU operation (R106, R112 to R121). -/
def regRegInstr (op : AluOp) (rd rs1 rs2 : RegIdx) : Instr :=
  match op with
  | .add => .add rd rs1 rs2
  | .sub => .sub rd rs1 rs2
  | .and => .and rd rs1 rs2
  | .or => .or rd rs1 rs2
  | .xor => .xor rd rs1 rs2
  | .slt => .slt rd rs1 rs2
  | .sltu => .sltu rd rs1 rs2
  | .sll => .sll rd rs1 rs2
  | .srl => .srl rd rs1 rs2
  | .sra => .sra rd rs1 rs2

/-- The match column of spec/opcode_table.json. -/
def tableMatch : Mnemonic → Word
  | .lui => 0x00000037 | .auipc => 0x00000017 | .jal => 0x0000006F | .jalr => 0x00000067
  | .beq => 0x00000063 | .bne => 0x00001063 | .blt => 0x00004063 | .bge => 0x00005063
  | .bltu => 0x00006063 | .bgeu => 0x00007063
  | .lb => 0x00000003 | .lh => 0x00001003 | .lw => 0x00002003 | .lbu => 0x00004003
  | .lhu => 0x00005003 | .sb => 0x00000023 | .sh => 0x00001023 | .sw => 0x00002023
  | .addi => 0x00000013 | .slti => 0x00002013 | .sltiu => 0x00003013 | .xori => 0x00004013
  | .ori => 0x00006013 | .andi => 0x00007013 | .slli => 0x00001013 | .srli => 0x00005013
  | .srai => 0x40005013 | .add => 0x00000033 | .sub => 0x40000033 | .sll => 0x00001033
  | .slt => 0x00002033 | .sltu => 0x00003033 | .xor => 0x00004033 | .srl => 0x00005033
  | .sra => 0x40005033 | .or => 0x00006033 | .and => 0x00007033

/-- The mask column of spec/opcode_table.json. -/
def tableMask : Mnemonic → Word
  | .lui | .auipc | .jal => 0x0000007F
  | .jalr | .beq | .bne | .blt | .bge | .bltu | .bgeu | .lb | .lh | .lw | .lbu | .lhu
  | .sb | .sh | .sw | .addi | .slti | .sltiu | .xori | .ori | .andi => 0x0000707F
  | .slli | .srli | .srai | .add | .sub | .sll | .slt | .sltu | .xor | .srl | .sra | .or
  | .and => 0xFE00707F

/-- The selector values no row uses, as R79 lists them. -/
def UnusedSelectors (op : BitVec 7) (f3 : BitVec 3) (f7 : BitVec 7) : Prop :=
  op ∉ [0b0000011#7, 0b0010011#7, 0b0010111#7, 0b0100011#7, 0b0110011#7, 0b0110111#7,
    0b1100011#7, 0b1100111#7, 0b1101111#7] ∨
  (op = 0b0000011#7 ∧ f3 ∈ [0b011#3, 0b110#3, 0b111#3]) ∨
  (op = 0b0100011#7 ∧ f3 ∈ [0b011#3, 0b100#3, 0b101#3, 0b110#3, 0b111#3]) ∨
  (op = 0b1100011#7 ∧ f3 ∈ [0b010#3, 0b011#3]) ∨
  (op = 0b1100111#7 ∧ f3 ≠ 0b000#3) ∨
  (op = 0b0010011#7 ∧ f3 = 0b001#3 ∧ f7 ≠ 0b0000000#7) ∨
  (op = 0b0010011#7 ∧ f3 = 0b101#3 ∧ f7 ∉ [0b0000000#7, 0b0100000#7]) ∨
  (op = 0b0110011#7 ∧ f7 ∉ [0b0000000#7, 0b0100000#7]) ∨
  (op = 0b0110011#7 ∧ f7 = 0b0100000#7 ∧ f3 ∉ [0b000#3, 0b101#3])

/-- The sets of valid immediates, as R66 lists them by format; format R has no immediate. -/
def ImmInSet (format : Format) (imm : Int) : Prop :=
  match format with
  | .r => True
  | .i | .s => -2048 ≤ imm ∧ imm ≤ 2047
  | .b => -4096 ≤ imm ∧ imm ≤ 4094 ∧ imm % 2 = 0
  | .j => -1048576 ≤ imm ∧ imm ≤ 1048574 ∧ imm % 2 = 0
  | .u => ∃ k : Int, 0 ≤ k ∧ k ≤ 1048575 ∧ imm = k * 4096
  | .i2 => 0 ≤ imm ∧ imm ≤ 31

/-- The fields a format carries (R58) are the same in both records. -/
def SameFields (format : Format) (f g : Fields) : Prop :=
  match format with
  | .r => f.rd = g.rd ∧ f.rs1 = g.rs1 ∧ f.rs2 = g.rs2
  | .i | .i2 => f.rd = g.rd ∧ f.rs1 = g.rs1 ∧ f.imm = g.imm
  | .s | .b => f.rs1 = g.rs1 ∧ f.rs2 = g.rs2 ∧ f.imm = g.imm
  | .u | .j => f.rd = g.rd ∧ f.imm = g.imm

/-- Whether a branch's condition holds, over integers (R151); false for what is no branch. -/
def branchTaken (i : Instr) (s : State) : Bool :=
  match i with
  | .beq rs1 rs2 _ => decide ((s.readReg rs1).toNat = (s.readReg rs2).toNat)
  | .bne rs1 rs2 _ => decide ((s.readReg rs1).toNat ≠ (s.readReg rs2).toNat)
  | .blt rs1 rs2 _ => decide (s32 (s.readReg rs1) < s32 (s.readReg rs2))
  | .bge rs1 rs2 _ => decide (s32 (s.readReg rs1) ≥ s32 (s.readReg rs2))
  | .bltu rs1 rs2 _ => decide ((s.readReg rs1).toNat < (s.readReg rs2).toNat)
  | .bgeu rs1 rs2 _ => decide ((s.readReg rs1).toNat ≥ (s.readReg rs2).toNat)
  | _ => false

/-- The registers an instruction reads, by its format (R19). -/
def readsRegs (i : Instr) : List RegIdx :=
  match (specFor i.mnemonic).format with
  | .r | .s | .b => [i.fields.rs1, i.fields.rs2]
  | .i | .i2 => [i.fields.rs1]
  | .u | .j => []

/-- The register an instruction writes, by its format (R19). -/
def destReg (i : Instr) : Option RegIdx :=
  match (specFor i.mnemonic).format with
  | .r | .i | .i2 | .u | .j => some i.fields.rd
  | .s | .b => none

end Sys2Proof.Claims

open Sys2Proof.Claims

/-! ### Registers -/

/-- R16 and R17: x0 reads 0 whatever is written, a write to it has no effect, a write of any integer
to another register leaves it modulo 2^32 there and every other register as it was, and whatever an
instruction does to the register file is one such write. -/
def Obligations.RegisterReadAndWrite : Prop :=
  (∀ (i : Instr) (s t : State), exec i s = .next t →
    ∃ (rd : RegIdx) (v : Int), t.x = (s.writeReg rd (u32 v)).x) ∧
  ∀ (s : State) (i : RegIdx) (v : Int),
    s.readReg 0#5 = 0#32 ∧ s.writeReg 0#5 (u32 v) = s ∧
    (i ≠ 0#5 → s.readReg i = s.x.getD (i.toNat - 1) 0#32 ∧
      (((s.writeReg i (u32 v)).readReg i).toNat : Int) = v % 2 ^ 32) ∧
    (∀ j, j ≠ i → (s.writeReg i (u32 v)).readReg j = s.readReg j) ∧
    (s.writeReg i (u32 v)).pc = s.pc ∧ (s.writeReg i (u32 v)).mem = s.mem ∧
    (s.writeReg i (u32 v)).imem = s.imem ∧ (s.writeReg i (u32 v)).status = s.status ∧
    (s.writeReg i (u32 v)).config = s.config

/-! ### ALU -/

/-- R106: the ten operations of the ALU, over integers and single bits. -/
def Obligations.AluTableOverIntegers : Prop :=
  ∀ a b : Word,
    (alu .add a b).toNat = (a.toNat + b.toNat) % 2 ^ 32 ∧
    ((alu .sub a b).toNat : Int) = ((a.toNat : Int) - b.toNat) % 2 ^ 32 ∧
    (∀ k, (alu .and a b).getLsbD k = (a.getLsbD k && b.getLsbD k)) ∧
    (∀ k, (alu .or a b).getLsbD k = (a.getLsbD k || b.getLsbD k)) ∧
    (∀ k, (alu .xor a b).getLsbD k = (a.getLsbD k != b.getLsbD k)) ∧
    (alu .slt a b).toNat = (if s32 a < s32 b then 1 else 0) ∧
    (alu .sltu a b).toNat = (if a.toNat < b.toNat then 1 else 0) ∧
    (alu .sll a b).toNat = a.toNat * 2 ^ (b.toNat % 32) % 2 ^ 32 ∧
    (alu .srl a b).toNat = a.toNat / 2 ^ (b.toNat % 32) ∧
    ((alu .sra a b).toNat : Int) = s32 a / 2 ^ (b.toNat % 32) % 2 ^ 32

/-- R108: only the low 5 bits of a register shift amount count, a shift by 0 changes nothing, and
the immediate shifts shift by the decoded amount. -/
def Obligations.ShiftAmountsAreMasked : Prop :=
  (∀ op ∈ [AluOp.sll, .srl, .sra], ∀ a b c : Word,
    (b.toNat % 32 = c.toNat % 32 → alu op a b = alu op a c) ∧ alu op a 0#32 = a ∧
    alu op a 32#32 = a ∧ alu op a 37#32 = alu op a 5#32) ∧
  (∀ (rd rs1 : RegIdx) (imm : Shamt) (s : State),
    Executes (.slli rd rs1 imm) s rd (s.readReg rs1 <<< imm.val) (s.pc + 4) ∧
    Executes (.srli rd rs1 imm) s rd (s.readReg rs1 >>> imm.val) (s.pc + 4) ∧
    Executes (.srai rd rs1 imm) s rd ((s.readReg rs1).sshiftRight imm.val) (s.pc + 4))

/-- R110: each of the 19 arithmetic and logic instructions answers a next state in which rd holds
the ALU's result on the values its sources had before (x0 discards it) and pc is pc + 4, and in
which nothing else has changed. -/
def Obligations.AluInstructionsWriteAluResult : Prop :=
  (∀ (op : AluOp) (rd rs1 rs2 : RegIdx) (s : State),
    Executes (regRegInstr op rd rs1 rs2) s rd (alu op (s.readReg rs1) (s.readReg rs2))
      (s.pc + 4)) ∧
  (∀ (rd rs1 : RegIdx) (imm : ImmI) (s : State),
    Executes (.addi rd rs1 imm) s rd (alu .add (s.readReg rs1) (u32 imm.val)) (s.pc + 4) ∧
    Executes (.slti rd rs1 imm) s rd (alu .slt (s.readReg rs1) (u32 imm.val)) (s.pc + 4) ∧
    Executes (.sltiu rd rs1 imm) s rd (alu .sltu (s.readReg rs1) (u32 imm.val)) (s.pc + 4) ∧
    Executes (.xori rd rs1 imm) s rd (alu .xor (s.readReg rs1) (u32 imm.val)) (s.pc + 4) ∧
    Executes (.ori rd rs1 imm) s rd (alu .or (s.readReg rs1) (u32 imm.val)) (s.pc + 4) ∧
    Executes (.andi rd rs1 imm) s rd (alu .and (s.readReg rs1) (u32 imm.val)) (s.pc + 4)) ∧
  (∀ (rd rs1 : RegIdx) (imm : Shamt) (s : State),
    Executes (.slli rd rs1 imm) s rd (alu .sll (s.readReg rs1) (u32 imm.val)) (s.pc + 4) ∧
    Executes (.srli rd rs1 imm) s rd (alu .srl (s.readReg rs1) (u32 imm.val)) (s.pc + 4) ∧
    Executes (.srai rd rs1 imm) s rd (alu .sra (s.readReg rs1) (u32 imm.val)) (s.pc + 4))

/-- R112 to R121: the ten register-register instructions, each with its row of the spec table, the
word of its worked example, and its result over integers. -/
def Obligations.RegRegInstructionResults : Prop :=
  ∀ (rd rs1 rs2 : RegIdx) (s : State),
    let a := s.readReg rs1
    let b := s.readReg rs2
    (specFor .add = ⟨.r, 0b0110011, some 0b000, some 0b0000000⟩ ∧
      encode (.add 3 1 2) = 0x002081B3 ∧
      Executes (.add rd rs1 rs2) s rd (u32 (a.toNat + b.toNat)) (s.pc + 4)) ∧
    (specFor .sub = ⟨.r, 0b0110011, some 0b000, some 0b0100000⟩ ∧
      encode (.sub 3 1 2) = 0x402081B3 ∧
      Executes (.sub rd rs1 rs2) s rd (u32 ((a.toNat : Int) - b.toNat)) (s.pc + 4)) ∧
    (specFor .and = ⟨.r, 0b0110011, some 0b111, some 0b0000000⟩ ∧
      encode (.and 3 1 2) = 0x0020F1B3 ∧ Executes (.and rd rs1 rs2) s rd (a &&& b) (s.pc + 4)) ∧
    (specFor .or = ⟨.r, 0b0110011, some 0b110, some 0b0000000⟩ ∧
      encode (.or 3 1 2) = 0x0020E1B3 ∧ Executes (.or rd rs1 rs2) s rd (a ||| b) (s.pc + 4)) ∧
    (specFor .xor = ⟨.r, 0b0110011, some 0b100, some 0b0000000⟩ ∧
      encode (.xor 3 1 2) = 0x0020C1B3 ∧ Executes (.xor rd rs1 rs2) s rd (a ^^^ b) (s.pc + 4)) ∧
    (specFor .slt = ⟨.r, 0b0110011, some 0b010, some 0b0000000⟩ ∧
      encode (.slt 3 1 2) = 0x0020A1B3 ∧
      Executes (.slt rd rs1 rs2) s rd (if s32 a < s32 b then 1 else 0) (s.pc + 4)) ∧
    (specFor .sltu = ⟨.r, 0b0110011, some 0b011, some 0b0000000⟩ ∧
      encode (.sltu 3 1 2) = 0x0020B1B3 ∧
      Executes (.sltu rd rs1 rs2) s rd (if a.toNat < b.toNat then 1 else 0) (s.pc + 4)) ∧
    (specFor .sll = ⟨.r, 0b0110011, some 0b001, some 0b0000000⟩ ∧
      encode (.sll 3 1 2) = 0x002091B3 ∧
      Executes (.sll rd rs1 rs2) s rd (u32 ((a.toNat : Int) * 2 ^ (b.toNat % 32)))
        (s.pc + 4)) ∧
    (specFor .srl = ⟨.r, 0b0110011, some 0b101, some 0b0000000⟩ ∧
      encode (.srl 3 1 2) = 0x0020D1B3 ∧
      Executes (.srl rd rs1 rs2) s rd (u32 ((a.toNat : Int) / 2 ^ (b.toNat % 32)))
        (s.pc + 4)) ∧
    (specFor .sra = ⟨.r, 0b0110011, some 0b101, some 0b0100000⟩ ∧
      encode (.sra 3 1 2) = 0x4020D1B3 ∧
      Executes (.sra rd rs1 rs2) s rd (u32 (s32 a / 2 ^ (b.toNat % 32))) (s.pc + 4))

/-- R122 to R130: the nine immediate forms on the immediates their format has, each with its row,
the word of its worked example, and its result over integers. A shift amount of 32 or more can be
neither encoded nor written, and SRAI's funct7 bits are no part of its shift amount. -/
def Obligations.ImmediateInstructionResults : Prop :=
  (∀ (rd rs1 : RegIdx) (imm : ImmI) (s : State),
    let a := s.readReg rs1
    (specFor .addi = ⟨.i, 0b0010011, some 0b000, none⟩ ∧
      encode (.addi 3 1 ⟨-1, by decide⟩) = 0xFFF08193 ∧
      Executes (.addi rd rs1 imm) s rd (u32 (a.toNat + imm.val)) (s.pc + 4)) ∧
    (specFor .slti = ⟨.i, 0b0010011, some 0b010, none⟩ ∧
      encode (.slti 3 1 ⟨-1, by decide⟩) = 0xFFF0A193 ∧
      Executes (.slti rd rs1 imm) s rd (if s32 a < imm.val then 1 else 0) (s.pc + 4)) ∧
    (specFor .sltiu = ⟨.i, 0b0010011, some 0b011, none⟩ ∧
      encode (.sltiu 3 1 ⟨-1, by decide⟩) = 0xFFF0B193 ∧
      Executes (.sltiu rd rs1 imm) s rd (if (a.toNat : Int) < imm.val % 2 ^ 32 then 1 else 0)
        (s.pc + 4)) ∧
    (specFor .xori = ⟨.i, 0b0010011, some 0b100, none⟩ ∧
      encode (.xori 3 1 ⟨-1, by decide⟩) = 0xFFF0C193 ∧
      Executes (.xori rd rs1 imm) s rd (a ^^^ u32 imm.val) (s.pc + 4)) ∧
    (specFor .ori = ⟨.i, 0b0010011, some 0b110, none⟩ ∧
      encode (.ori 3 1 ⟨0xF0, by decide⟩) = 0x0F00E193 ∧
      Executes (.ori rd rs1 imm) s rd (a ||| u32 imm.val) (s.pc + 4)) ∧
    (specFor .andi = ⟨.i, 0b0010011, some 0b111, none⟩ ∧
      encode (.andi 3 1 ⟨0x7FF, by decide⟩) = 0x7FF0F193 ∧
      Executes (.andi rd rs1 imm) s rd (a &&& u32 imm.val) (s.pc + 4))) ∧
  (∀ (rd rs1 : RegIdx) (imm : Shamt) (s : State),
    let a := s.readReg rs1
    (specFor .slli = ⟨.i2, 0b0010011, some 0b001, some 0b0000000⟩ ∧
      encode (.slli 3 1 ⟨31, by decide⟩) = 0x01F09193 ∧
      (∀ w : Word, opcodeOf w = 0b0010011 → funct3Of w = 0b001 → w.getLsbD 25 = true →
        decodeBinary w = .error .unknownEncoding) ∧
      (∀ (lit : Text) (v : Int), literalValue lit = some v → 32 ≤ v →
        parseFormatImm .i2 lit = .error .immediateOutOfRange) ∧
      Executes (.slli rd rs1 imm) s rd (u32 ((a.toNat : Int) * 2 ^ imm.val)) (s.pc + 4)) ∧
    (specFor .srli = ⟨.i2, 0b0010011, some 0b101, some 0b0000000⟩ ∧
      encode (.srli 3 1 ⟨4, by decide⟩) = 0x0040D193 ∧
      Executes (.srli rd rs1 imm) s rd (u32 ((a.toNat : Int) / 2 ^ imm.val)) (s.pc + 4)) ∧
    (specFor .srai = ⟨.i2, 0b0010011, some 0b101, some 0b0100000⟩ ∧
      encode (.srai 3 1 ⟨4, by decide⟩) = 0x4040D193 ∧
      (∀ (w : Word) (d s1 : RegIdx) (n : Shamt), decodeBinary w = .ok (.srai d s1 n) →
        n.val = bits w 24 20 ∧ bits w 31 25 = 0b0100000) ∧
      Executes (.srai rd rs1 imm) s rd (u32 (s32 a / 2 ^ imm.val)) (s.pc + 4)))

/-! ### Data memory, loads and stores -/

/-- R38 and R39: the read and write primitives, byte by byte with each byte address wrapped. -/
def Obligations.MemReadAndMemWriteByBytes : Prop :=
  ∀ (s : State) (a v : Word),
    let byte := fun k => (s.readByte (wrapped s a k)).toNat
    s.memRead a 1 = byte 0 ∧
    s.memRead a 2 = byte 0 + byte 1 * 2 ^ 8 ∧
    s.memRead a 4 = byte 0 + byte 1 * 2 ^ 8 + byte 2 * 2 ^ 16 + byte 3 * 2 ^ 24 ∧
    (∀ n ∈ [1, 2, 4], s.memRead a n < 2 ^ (8 * n)) ∧
    (∀ n ∈ [1, 2, 4], s.config.Valid →
      (∀ k < n, ((s.memWrite a v n).readByte (wrapped s a k)).toNat
        = v.toNat / 2 ^ (8 * k) % 256)) ∧
    (∀ n ∈ [1, 2, 4], ∀ b, (∀ k < n, b ≠ wrapped s a k) →
      (s.memWrite a v n).readByte b = s.readByte b)

/-- R40: addresses that agree modulo MEM_SIZE are the same bytes, for reads and writes of every
width, reducing an unbounded sum modulo 2^32 first gives the same byte, and no load or store fails,
whatever its address. -/
def Obligations.DataAddressesAlias : Prop :=
  (∀ (i : Instr) (s : State), i.mnemonic ∈ [.lb, .lh, .lw, .lbu, .lhu, .sb, .sh, .sw] →
    ∃ t, exec i s = .next t) ∧
  (∀ (s : State) (a b v : Word) (n : Nat),
    a.toNat % s.config.memSize = b.toNat % s.config.memSize →
    s.memRead a n = s.memRead b n ∧ s.memWrite a v n = s.memWrite b v n) ∧
  (∀ (s : State) (z : Int) (k : Nat), s.config.Valid →
    ((s.byteAddr (u32 z) k : Nat) : Int) = (z + k) % (s.config.memSize : Int))

/-- R41: little-endian, for every mixture of widths. After an n-byte write at `a`, byte `i` of an
m-byte read at any address is byte `k` of the value written where it is byte `k` of the write (each
byte address wrapped), and the byte memory held before where it is no byte of the write; a read that
lies within the write at distance `d` is those bytes of the value; and the rule's own five reads of
0x11223344. -/
def Obligations.LittleEndianMixedWidths : Prop :=
  (∀ (s : State) (a v b : Word), s.config.Valid → ∀ n ∈ [1, 2, 4], ∀ m ∈ [1, 2, 4],
    ∀ i < m,
      let byte := (s.memWrite a v n).memRead b m / 2 ^ (8 * i) % 2 ^ 8
      (∀ k < n, wrapped s b i = wrapped s a k → byte = v.toNat / 2 ^ (8 * k) % 2 ^ 8) ∧
      ((∀ k < n, wrapped s b i ≠ wrapped s a k) →
        byte = (s.readByte (wrapped s b i)).toNat)) ∧
  (∀ (s : State) (a v : Word), s.config.Valid → ∀ n ∈ [1, 2, 4], ∀ m ∈ [1, 2, 4],
    ∀ d, d + m ≤ n → (s.memWrite a v n).memRead (a + BitVec.ofNat 32 d) m
      = v.toNat / 2 ^ (8 * d) % 2 ^ (8 * m)) ∧
  (∀ (s : State) (a : Word), s.config.Valid →
    let t := s.memWrite a 0x11223344 4
    t.memRead a 4 = 0x11223344 ∧ t.memRead a 1 = 0x44 ∧ t.memRead (a + 1) 1 = 0x33 ∧
    t.memRead a 2 = 0x3344 ∧ t.memRead (a + 2) 2 = 0x1122)

/-- R134 to R138: the five loads, each with its row, the word of its worked example, the bytes it
reads at the effective address and how it widens them. -/
def Obligations.LoadInstructionResults : Prop :=
  ∀ (rd rs1 : RegIdx) (imm : ImmI) (s : State),
    let byte := fun k => s.readByte (wrapped s (effAddr s rs1 imm.val) k)
    (specFor .lb = ⟨.i, 0b0000011, some 0b000, none⟩ ∧
      encode (.lb 5 1 ⟨4, by decide⟩) = 0x00408283 ∧
      Executes (.lb rd rs1 imm) s rd ((byte 0).signExtend 32) (s.pc + 4)) ∧
    (specFor .lh = ⟨.i, 0b0000011, some 0b001, none⟩ ∧
      encode (.lh 5 1 ⟨2, by decide⟩) = 0x00209283 ∧
      Executes (.lh rd rs1 imm) s rd ((byte 1 ++ byte 0).signExtend 32) (s.pc + 4)) ∧
    (specFor .lw = ⟨.i, 0b0000011, some 0b010, none⟩ ∧
      encode (.lw 5 1 ⟨0, by decide⟩) = 0x0000A283 ∧
      encode (.lw 5 0 ⟨-1, by decide⟩) = 0xFFF02283 ∧
      Executes (.lw rd rs1 imm) s rd (byte 3 ++ byte 2 ++ byte 1 ++ byte 0) (s.pc + 4)) ∧
    (specFor .lbu = ⟨.i, 0b0000011, some 0b100, none⟩ ∧
      encode (.lbu 5 1 ⟨4, by decide⟩) = 0x0040C283 ∧
      Executes (.lbu rd rs1 imm) s rd ((byte 0).zeroExtend 32) (s.pc + 4)) ∧
    (specFor .lhu = ⟨.i, 0b0000011, some 0b101, none⟩ ∧
      encode (.lhu 5 1 ⟨2, by decide⟩) = 0x0020D283 ∧
      Executes (.lhu rd rs1 imm) s rd ((byte 1 ++ byte 0).zeroExtend 32) (s.pc + 4))

/-- R139 to R141: the three stores, each with its row, the word of its worked example, the bytes it
stores at the effective address, and that no other byte and no register changes. -/
def Obligations.StoreInstructionResults : Prop :=
  ∀ (rs1 rs2 : RegIdx) (imm : ImmI) (s : State), s.config.Valid →
    let ea := effAddr s rs1 imm.val
    (specFor .sb = ⟨.s, 0b0100011, some 0b000, none⟩ ∧
      encode (.sb 1 2 ⟨1, by decide⟩) = 0x002080A3 ∧
      ExecutesStore (.sb rs1 rs2 imm) s ea 1 (s.readReg rs2)) ∧
    (specFor .sh = ⟨.s, 0b0100011, some 0b001, none⟩ ∧
      encode (.sh 1 2 ⟨-2, by decide⟩) = 0xFE209F23 ∧
      ExecutesStore (.sh rs1 rs2 imm) s ea 2 (s.readReg rs2)) ∧
    (specFor .sw = ⟨.s, 0b0100011, some 0b010, none⟩ ∧
      encode (.sw 1 2 ⟨0, by decide⟩) = 0x0020A023 ∧
      ExecutesStore (.sw rs1 rs2 imm) s ea 4 (s.readReg rs2))

/-- A load of the width of the store before it, from the same base and offset, reads back what was
stored, narrowed and widened as the pair says (from R38, R39, R133, R134 to R141). -/
def Obligations.LoadAfterStoreReadsBack : Prop :=
  ∀ (rd rs1 rs2 : RegIdx) (imm : ImmI) (s t u : State), s.config.Valid → rd ≠ 0#5 →
    (exec (.sw rs1 rs2 imm) s = .next t → exec (.lw rd rs1 imm) t = .next u →
      u.readReg rd = s.readReg rs2) ∧
    (exec (.sh rs1 rs2 imm) s = .next t → exec (.lhu rd rs1 imm) t = .next u →
      (u.readReg rd).toNat = (s.readReg rs2).toNat % 2 ^ 16) ∧
    (exec (.sb rs1 rs2 imm) s = .next t → exec (.lb rd rs1 imm) t = .next u →
      s32 (u.readReg rd) = sextOf 8 ((s.readReg rs2).toNat % 2 ^ 8))

/-- From R51: after any sequence of stores, each as address, value and width, a byte holds what the
last store to it put there, and its first value where none reached it. -/
def Obligations.LastStoreToAByteWins : Prop :=
  ∀ (s : State), s.config.Valid →
    let after := fun stores : List (Word × Word × Nat) =>
      stores.foldl (fun s w => s.memWrite w.1 w.2.1 w.2.2) s
    (∀ (stores : List (Word × Word × Nat)) (b : Nat),
      (∀ w ∈ stores, ∀ k < w.2.2, b ≠ wrapped s w.1 k) →
      (after stores).readByte b = s.readByte b) ∧
    (∀ (earlier later : List (Word × Word × Nat)) (a v : Word) (n k : Nat), n ≤ 4 → k < n →
      (∀ w ∈ later, ∀ j < w.2.2, wrapped s a k ≠ wrapped s w.1 j) →
      (after (earlier ++ (a, v, n) :: later)).readByte (wrapped s a k)
        = BitVec.ofNat 8 (v.toNat / 2 ^ (8 * k)))

/-! ### Upper immediates, jumps and branches -/

/-- R143 and R144: LUI and AUIPC on the immediates format U has, with their rows and the words of
their worked examples. -/
def Obligations.UpperImmediateResults : Prop :=
  ∀ (rd : RegIdx) (imm : ImmU) (s : State),
    (specFor .lui = ⟨.u, 0b0110111, none, none⟩ ∧
      encode (.lui 5 ⟨0x12345000, by decide⟩) = 0x123452B7 ∧
      encode (.lui 5 ⟨0xFFFFF000, by decide⟩) = 0xFFFFF2B7 ∧
      Executes (.lui rd imm) s rd (BitVec.ofNat 32 imm.val) (s.pc + 4) ∧
      (BitVec.ofNat 32 imm.val).toNat = imm.val ∧ imm.val % 4096 = 0) ∧
    (specFor .auipc = ⟨.u, 0b0010111, none, none⟩ ∧
      encode (.auipc 6 ⟨0x1000, by decide⟩) = 0x00001317 ∧
      encode (.auipc 5 ⟨0xFFFFF000, by decide⟩) = 0xFFFFF297 ∧
      Executes (.auipc rd imm) s rd (u32 (s.pc.toNat + imm.val)) (s.pc + 4))

/-- R149: JAL links the address after it and jumps to pc + imm; the target is taken without a
check, and a target that is not a multiple of 4 fails at the next fetch. -/
def Obligations.JalLinksAndJumps : Prop :=
  specFor .jal = ⟨.j, 0b1101111, none, none⟩ ∧
  encode (.jal 1 ⟨8, by decide⟩) = 0x008000EF ∧ encode (.jal 0 ⟨-4, by decide⟩) = 0xFFDFF06F ∧
  ∀ (rd : RegIdx) (imm : ImmJ) (s : State),
    ∃ t, exec (.jal rd imm) s = .next t ∧
      WritesReg s t rd (u32 (s.pc.toNat + 4)) (u32 (s.pc.toNat + imm.val)) ∧
      (imm.val = 0 → t.pc = s.pc) ∧
      (t.pc.toNat % 4 ≠ 0 → t.iFetch = .error .fetchMisaligned) ∧
      (t.pc.toNat % 4 = 0 → t.config.imemWords ≤ t.pc.toNat / 4 →
        t.iFetch = .error .fetchOutOfRange)

/-- R150: JALR in both orders of JALR_READS_RS1_AFTER_LINK. Under the default the target's
base is read after the link, so it is the link itself where rd = rs1 ≠ x0; under the alternative it
is the old value. In every other case the two orders do the same. Bit 0 is not cleared. -/
def Obligations.JalrBothOrders : Prop :=
  specFor .jalr = ⟨.i, 0b1100111, some 0b000, none⟩ ∧
  encode (.jalr 1 5 ⟨4, by decide⟩) = 0x004280E7 ∧ encode (.jalr 5 5 ⟨0, by decide⟩) = 0x000282E7 ∧
  defaultConfig.jalrReadsRs1AfterLink = true ∧
  ∀ (rd rs1 : RegIdx) (imm : ImmI) (s : State),
    let link := u32 (s.pc.toNat + 4)
    let base := if s.config.jalrReadsRs1AfterLink = true ∧ rd = rs1 ∧ rd ≠ 0#5 then link
      else s.readReg rs1
    ∃ t, exec (.jalr rd rs1 imm) s = .next t ∧
      WritesReg s t rd link (u32 (base.toNat + imm.val)) ∧
      (t.pc.toNat % 4 ≠ 0 → t.iFetch = .error .fetchMisaligned) ∧
      (t.pc.toNat % 4 = 0 → t.config.imemWords ≤ t.pc.toNat / 4 →
        t.iFetch = .error .fetchOutOfRange)

/-- R153 to R158: the six branches, each with its row, the word of its worked example, and the next
pc, taken and not taken; nothing but the pc changes. -/
def Obligations.BranchResults : Prop :=
  ∀ (rs1 rs2 : RegIdx) (imm : ImmB) (s : State),
    let a := s.readReg rs1
    let b := s.readReg rs2
    let taken : State := { s with pc := u32 (s.pc.toNat + imm.val) }
    let untaken : State := { s with pc := u32 (s.pc.toNat + 4) }
    (specFor .beq = ⟨.b, 0b1100011, some 0b000, none⟩ ∧
      encode (.beq 1 2 ⟨8, by decide⟩) = 0x00208463 ∧
      exec (.beq rs1 rs2 imm) s = .next (if a = b then taken else untaken)) ∧
    (specFor .bne = ⟨.b, 0b1100011, some 0b001, none⟩ ∧
      encode (.bne 1 2 ⟨-4, by decide⟩) = 0xFE209EE3 ∧
      exec (.bne rs1 rs2 imm) s = .next (if a ≠ b then taken else untaken)) ∧
    (specFor .blt = ⟨.b, 0b1100011, some 0b100, none⟩ ∧
      encode (.blt 1 2 ⟨12, by decide⟩) = 0x0020C663 ∧
      exec (.blt rs1 rs2 imm) s = .next (if s32 a < s32 b then taken else untaken)) ∧
    (specFor .bge = ⟨.b, 0b1100011, some 0b101, none⟩ ∧
      encode (.bge 1 2 ⟨16, by decide⟩) = 0x0020D863 ∧
      exec (.bge rs1 rs2 imm) s = .next (if s32 a ≥ s32 b then taken else untaken)) ∧
    (specFor .bltu = ⟨.b, 0b1100011, some 0b110, none⟩ ∧
      encode (.bltu 1 2 ⟨12, by decide⟩) = 0x0020E663 ∧
      exec (.bltu rs1 rs2 imm) s = .next (if a.toNat < b.toNat then taken else untaken)) ∧
    (specFor .bgeu = ⟨.b, 0b1100011, some 0b111, none⟩ ∧
      encode (.bgeu 1 2 ⟨16, by decide⟩) = 0x0020F863 ∧
      exec (.bgeu rs1 rs2 imm) s = .next (if a.toNat ≥ b.toNat then taken else untaken))

/-- R145: the four sources of the next pc, over all 37 instructions. -/
def Obligations.NextPcMultiplexer : Prop :=
  ∀ (i : Instr) (s t : State), exec i s = .next t →
    t.pc = match i with
      | .jal _ imm => u32 (s.pc.toNat + imm.val)
      | .jalr rd rs1 imm =>
        u32 ((if s.config.jalrReadsRs1AfterLink then
          (s.writeReg rd (u32 (s.pc.toNat + 4))).readReg rs1 else s.readReg rs1).toNat + imm.val)
      | .beq _ _ imm | .bne _ _ imm | .blt _ _ imm | .bge _ _ imm | .bltu _ _ imm
      | .bgeu _ _ imm => u32 (s.pc.toNat + if branchTaken i s then imm.val else 4)
      | _ => u32 (s.pc.toNat + 4)

/-- From R22, R25 and R66: every instruction but JALR keeps bit 0 of the pc, because the
immediates of JAL and the branches are even. -/
def Obligations.OnlyJalrMakesThePcOdd : Prop :=
  ∀ (i : Instr) (s t : State), i.mnemonic ≠ .jalr → exec i s = .next t →
    t.pc.toNat % 2 = s.pc.toNat % 2

/-! ### What an executed instruction may touch -/

/-- From R19 and R31: an executed instruction changes no register but the destination of its
format, memory only if it is a store, and never the instruction store, the status or the
parameters. -/
def Obligations.OnlyTheDestinationChanges : Prop :=
  ∀ (i : Instr) (s t : State), exec i s = .next t →
    (∀ j, destReg i ≠ some j → t.readReg j = s.readReg j) ∧
    ((specFor i.mnemonic).format ≠ .s → t.mem = s.mem) ∧
    t.imem = s.imem ∧ t.status = s.status ∧ t.config = s.config

/-- From R19 and R30: what an instruction does depends on the registers its format reads and on no
other register. Two states that differ only in other registers go to the same pc and memory, and
the destination receives the same value. -/
def Obligations.OnlyTheSourcesMatter : Prop :=
  ∀ (i : Instr) (s s' t t' : State),
    s.pc = s'.pc → s.mem = s'.mem → s.config = s'.config →
    (∀ j ∈ readsRegs i, s.readReg j = s'.readReg j) →
    exec i s = .next t → exec i s' = .next t' →
    t.pc = t'.pc ∧ t.mem = t'.mem ∧ (∀ j, destReg i = some j → t.readReg j = t'.readReg j)

/-- From R159 and R167: every one of the 37 instructions completes from every state, on every
operand, and leaves the run status as it was. -/
def Obligations.EveryInstructionCompletes : Prop :=
  ∀ (i : Instr) (s : State), ∃ t, exec i s = .next t ∧ t.status = s.status

/-- R54: stores are never seen by the fetch. No step changes the instruction store, and the word
fetched at any pc is the same before and after any step. -/
def Obligations.StoresAreNeverFetched : Prop :=
  ∀ s t : State, step s = .next t →
    t.imem = s.imem ∧ ∀ pc : Word, (t.setPc pc).iFetch = (s.setPc pc).iFetch

/-! ### The step -/

/-- A Running machine whose pc is a multiple of 4 inside the store, at a loaded word that decodes
to `i`, executes `i` (R31). The step adds nothing around exec: the instruction sees its own
address in pc (R23) and sets the next pc itself (R145). -/
def Obligations.StepRunsTheDecodedInstruction : Prop :=
  ∀ (s : State) (w : Word) (i : Instr), s.status = .running → s.pc.toNat % 4 = 0 →
    s.pc.toNat / 4 < s.config.imemWords → cellAt (s.pc.toNat / 4) s.imem = some w →
    decodeBinary w = .ok i → step s = exec i s

/-- R45: the fetch, its three failures in their order, its result, and that a failure ends the run
in Faulted of its kind. -/
def Obligations.FetchAtEveryPc : Prop :=
  ∀ s : State,
    (s.pc.toNat % 4 ≠ 0 → s.iFetch = .error .fetchMisaligned) ∧
    (s.pc.toNat % 4 = 0 → s.config.imemWords ≤ s.pc.toNat / 4 →
      s.iFetch = .error .fetchOutOfRange) ∧
    (s.pc.toNat % 4 = 0 → s.pc.toNat / 4 < s.config.imemWords →
      cellAt (s.pc.toNat / 4) s.imem = none → s.iFetch = .error .fetchUnloaded) ∧
    (∀ w, s.pc.toNat % 4 = 0 → s.pc.toNat / 4 < s.config.imemWords →
      cellAt (s.pc.toNat / 4) s.imem = some w → s.iFetch = .ok w) ∧
    (∀ k, s.status = .running → s.iFetch = .error k →
      step s = .next { s with status := .faulted k })

/-- R162: one step has at most one outcome, chosen in the rule's order; the halt test comes before
the decoder, and an executed instruction raises nothing. -/
def Obligations.StepOutcomesInOrder : Prop :=
  (∀ (i : Instr) (s : State), ∃ t, exec i s = .next t ∧ t.status = s.status) ∧
  ∀ s : State, s.status = .running →
    step s =
      if s.pc.toNat % 4 ≠ 0 then .next { s with status := .faulted .fetchMisaligned }
      else if s.pc.toNat / 4 ≥ s.config.imemWords then
        .next { s with status := .faulted .fetchOutOfRange }
      else
        match cellAt (s.pc.toNat / 4) s.imem with
        | none => .next { s with status := .faulted .fetchUnloaded }
        | some w =>
          if w = 0#32 then .next { s with status := .halted }
          else
            match decodeBinary w with
            | .error k => .next { s with status := .faulted k }
            | .ok i => exec i s

/-- R161: a step that ends in Faulted sets the status and changes nothing else, and it is the fetch
or the decoder that failed with that kind; it is no clean end of the run. -/
def Obligations.FailedStepChangesOnlyTheStatus : Prop :=
  (∀ (s t : State) (k : FaultKind), step s = .next t → t.status = .faulted k →
    t = { s with status := .faulted k } ∧ ¬t.EndedCleanly ∧
    (s.iFetch = .error k ∨ ∃ w, s.iFetch = .ok w ∧ decodeBinary w = .error k)) ∧
  (∀ (s : State) (k : FaultKind), s.status = .running → s.iFetch = .error k →
    step s = .next { s with status := .faulted k }) ∧
  (∀ (s : State) (w : Word) (k : FaultKind), s.status = .running → s.iFetch = .ok w →
    w ≠ 0#32 → decodeBinary w = .error k → step s = .next { s with status := .faulted k })

/-- R28: a session starts Running at pc 0; Halted and Faulted are terminal, no step is enabled in
them; a step that is enabled starts Running; and no instruction changes the status, only the step
that fetches and decodes. -/
def Obligations.HaltedAndFaultedAreTerminal : Prop :=
  (∀ (l : Launch) (s : State), createSession l = some s → s.status = .running ∧ s.pc = 0#32) ∧
  (∀ (i : Instr) (s t : State), exec i s = .next t → t.status = s.status) ∧
  (∀ s : State, s.status = .halted → step s = .fault .runHalted) ∧
  (∀ (s : State) (k : FaultKind), s.status = .faulted k → step s = .fault (.runFaulted k)) ∧
  (∀ s t : State, step s = .next t → s.status = .running) ∧
  (∀ s : State, s.status = .running → ∃ t, step s = .next t)

/-- R86: the all-zero word halts the engine before decoding, is no instruction of the table, and
disassembles to ERROR. -/
def Obligations.AllZeroWordHalts : Prop :=
  (∀ s : State, s.status = .running → s.iFetch = .ok 0#32 →
    step s = .next { s with status := .halted }) ∧
  decodeBinary 0#32 = .error .unknownEncoding ∧ (∀ i : Instr, encode i ≠ 0#32) ∧
  disassembleText defaultAddrLabel ["00 00 00 00".toList] = ["_0: ERROR".toList]

/-- From R33 and R173: a bounded run is its steps one after another, splits at any point, and stays
where it is once it has ended. -/
def Obligations.BoundedRunsCompose : Prop :=
  (∀ (m n : Nat) (s : State), runFor (m + n) s = runFor n (runFor m s)) ∧
  (∀ (n : Nat) (s : State), s.status ≠ .running → runFor n s = s) ∧
  (∀ s t : State, step s = .next t → runFor 1 s = t)

/-! ### Reset, sessions and invariants -/

/-- R46: a program that fits goes to the slots from 0 on, every other slot is Unloaded and nothing
else changes; a larger one is refused. The load takes place when the session is created. -/
def Obligations.LoadProgramFillsTheStore : Prop :=
  (∀ l : Launch, createSession l = l.initialState.loadProgram l.program) ∧
  ∀ (s : State) (words : List Word),
    (words.length ≤ s.config.imemWords →
      ∃ t, s.loadProgram words = some t ∧
        (∀ k, cellAt k t.imem = words[k]?) ∧
        t.status = s.status ∧ t.pc = s.pc ∧ t.x = s.x ∧ t.mem = s.mem ∧ t.config = s.config) ∧
    (s.config.imemWords < words.length → s.loadProgram words = none)

/-- R34: the state of a new session is Running at pc 0 with REG_INIT in x1 to x31, MEM_INIT in data
memory (each byte it gives for an address below MEM_SIZE, given once), the program in the first
slots and the other slots Unloaded. -/
def Obligations.SessionStartState : Prop :=
  ∀ l : Launch, l.program.length ≤ l.config.imemWords →
    ∃ s, createSession l = some s ∧ s.status = .running ∧ s.pc = 0#32 ∧ s.readReg 0#5 = 0#32 ∧
      (∀ i : RegIdx, i ≠ 0#5 → s.readReg i = l.regInit.getD (i.toNat - 1) 0#32) ∧
      (∀ c ∈ l.memInit, (∀ d ∈ l.memInit, d.1 < l.config.memSize) →
        (l.memInit.map fun d => d.1).Nodup → s.readByte c.1 = c.2) ∧
      (∀ k, cellAt k s.imem = l.program[k]?) ∧ s.config = l.config

/-- This model's choice of MEM_INIT's form (log entry 14, DESIGN CHOICE): the bytes of a list, each
address taken modulo MEM_SIZE, the last entry for a byte winning, a byte the list leaves out reading
as log entry 4 says; and that the choice loses nothing, every contents of data memory being that of
some such list (R34, D13: any bytes). -/
def Obligations.MemInitListGivesDataMemory : Prop :=
  (∀ (l : Launch) (s : State), createSession l = some s → ∀ a < l.config.memSize,
    (∀ before after v b, l.memInit = before ++ (v, b) :: after → v % l.config.memSize = a →
      (∀ c ∈ after, c.1 % l.config.memSize ≠ a) → s.readByte a = b) ∧
    ((∀ c ∈ l.memInit, c.1 % l.config.memSize ≠ a) → s.readByte a = 0#8)) ∧
  (∀ (l : Launch) (s : State) (contents : Nat → Byte), createSession l = some s →
    ∃ memInit t, createSession { l with memInit := memInit } = some t ∧
      (∀ a < l.config.memSize, t.readByte a = contents a) ∧
      t.status = s.status ∧ t.pc = s.pc ∧ t.x = s.x ∧ t.imem = s.imem ∧ t.config = s.config)

/-- The reset state: Running at pc 0 with nothing loaded, as R34 says of a session without a
program; that x1 to x31 read 0, that every byte reads 0 and the two sizes are this model's choices
(log entries 2, 3 and 4). -/
def Obligations.ResetStateFields : Prop :=
  State.reset.status = .running ∧ State.reset.pc = 0#32 ∧ (∀ k, cellAt k State.reset.imem = none) ∧
  (∀ i, State.reset.readReg i = 0#32) ∧ (∀ a, State.reset.readByte a = 0#8) ∧
  State.reset.config.memSize = 2 ^ 32 ∧ State.reset.config.imemWords = 2 ^ 30

/-- The invariant of Safety.lean holds at reset. -/
def Obligations.ResetStateIsLegal : Prop := State.reset.Inv

/-- The invariant holds of every session created with parameters in their ranges. -/
def Obligations.NewSessionIsLegal : Prop :=
  ∀ (l : Launch) (s : State), l.config.Valid → createSession l = some s → s.Inv

/-- Every step keeps the invariant: parameters in range, memory and instruction store canonical and
within their sizes, and a stopped machine standing at the instruction that stopped it (R161,
R163). -/
def Obligations.StepKeepsLegalStates : Prop :=
  ∀ s t : State, s.Inv → step s = .next t → t.Inv

/-! ### Encoding -/

/-- R66: a structured instruction is a mnemonic with the fields of its format, and `Instr` holds
exactly the valid ones. A record of field values is one exactly when its immediate lies in the set
of its format (a register index is in [0, 31] by its type); the instruction has the record's mnemonic
and carries the fields of its format; and every instruction is that of its own record. -/
def Obligations.InstrHoldsExactlyTheValidRecords : Prop :=
  (∀ (m : Mnemonic) (f : Fields),
    (f.WellFormed (specFor m).format ↔ ImmInSet (specFor m).format f.imm) ∧
    ((∃ i, instrOf m f = some i) ↔ ImmInSet (specFor m).format f.imm) ∧
    (∀ i, instrOf m f = some i → i.mnemonic = m ∧ SameFields (specFor m).format i.fields f)) ∧
  (∀ i : Instr, instrOf i.mnemonic i.fields = some i) ∧ (∀ r : RegIdx, r.toNat ≤ 31)

/-- R83: decoding an encoded instruction gives it back, for all 37 and every operand. There is no
invalid one (R66). -/
def Obligations.DecodeOfEncode : Prop :=
  ∀ i : Instr, decodeBinary (encodeBinary i) = .ok i

/-- R84: a word whose selectors resolve to exactly one mnemonic decodes to an instruction of that
mnemonic, which encodes to the word; so does whatever a word decodes to, and two words that decode
alike are one word, since every bit is a selector or a field. -/
def Obligations.EncodeOfDecode : Prop :=
  (∀ w : Word, RoundTripsFromWord w) ∧
  (∀ (w : Word) (i : Instr), decodeBinary w = .ok i → encodeBinary i = w) ∧
  (∀ (w w' : Word) (i : Instr), decodeBinary w = .ok i → decodeBinary w' = .ok i → w = w')

/-- From R80 and C4: the decoder is total; every word gives a structured instruction, whose record
is valid and which encodes to the word, or fails UnknownEncoding, and none fails
AmbiguousEncoding. -/
def Obligations.DecoderAnswersValidOrUnknown : Prop :=
  ∀ w : Word,
    (∃ i, decodeBinary w = .ok i ∧ i.fields.WellFormed (specFor i.mnemonic).format ∧
      encodeBinary i = w) ∨
    decodeBinary w = .error .unknownEncoding

/-- R76 and R78: the rows that match a word's selectors are at most one; none fails
UnknownEncoding, one is answered; and a word resolves to `m` exactly when it agrees with the match
of `m` under its mask in spec/opcode_table.json. -/
def Obligations.ResolveAgreesWithOpcodeTable : Prop :=
  ∀ w : Word,
    let found := allMnemonics.filter fun m => w &&& tableMask m == tableMatch m
    let answer := resolve (opcodeOf w) (funct3Of w) (funct7Of w)
    found.length ≤ 1 ∧
    (found = [] → answer = .error .unknownEncoding) ∧
    (∀ m, found = [m] → answer = .ok m) ∧
    (∀ m, w &&& tableMask m = tableMatch m ↔ answer = .ok m) ∧
    answer ≠ .error .ambiguousEncoding

/-- R79: a word fails to decode exactly when its opcode is none of the nine or its selectors are
unused within it, as the rule lists them. -/
def Obligations.UnusedSelectorsDoNotDecode : Prop :=
  ∀ w : Word, decodeBinary w = .error .unknownEncoding ↔
    UnusedSelectors (opcodeOf w) (funct3Of w) (funct7Of w)

/-- R85: a word that does not resolve is illegal: it ends the run Faulted(UnknownEncoding), apart
from the halt word, and disassembles to ERROR; among them is every word whose low two bits are not 11
and every word of the opcodes 0001111 and 1110011. -/
def Obligations.IllegalWordsEndTheRun : Prop :=
  (∀ w : Word, UnusedSelectors (opcodeOf w) (funct3Of w) (funct7Of w) →
    (∀ s : State, s.status = .running → s.iFetch = .ok w → w ≠ 0#32 →
      step s = .next { s with status := .faulted .unknownEncoding }) ∧
    (∀ fmt : AddrLabelFormat,
      disassembleText fmt [displayWord w] = [addrLabel fmt 0 ++ "ERROR".toList])) ∧
  (∀ w : Word, (∀ i, decodeBinary w ≠ .ok i) ↔
    UnusedSelectors (opcodeOf w) (funct3Of w) (funct7Of w)) ∧
  (∀ w : Word, bits w 1 0 ≠ 0b11 ∨ bits w 6 0 = 0b0001111 ∨ bits w 6 0 = 0b1110011 →
    ∀ i, decodeBinary w ≠ .ok i)

/-- R68 to R73: the six immediates, over the word's bits as numbers. -/
def Obligations.DecodedImmediates : Prop :=
  ∀ w : Word,
    immI w = sextOf 12 (bits w 31 20) ∧
    immI2 w = bits w 24 20 ∧
    immS w = sextOf 12 (bits w 31 25 * 2 ^ 5 + bits w 11 7) ∧
    immB w = sextOf 13 (bits w 31 31 * 2 ^ 12 + bits w 7 7 * 2 ^ 11 + bits w 30 25 * 2 ^ 5 +
      bits w 11 8 * 2) ∧
    immU w = bits w 31 12 * 4096 ∧
    immJ w = sextOf 21 (bits w 31 31 * 2 ^ 20 + bits w 19 12 * 2 ^ 12 + bits w 20 20 * 2 ^ 11 +
      bits w 30 21 * 2)

/-- R74 and R81: where the encoder puts each field and each bit of the immediate, over all
instructions: the word's bit ranges, read as numbers, are the row's selectors, the register indices
and the immediate's bits. -/
def Obligations.EncoderPlacesEveryField : Prop :=
  ∀ i : Instr,
    let w := encode i
    let sp := specFor i.mnemonic
    let f := i.fields
    let u := fun n : Nat => (f.imm % 2 ^ n).toNat
    let b := fun n hi lo : Nat => u n / 2 ^ lo % 2 ^ (hi + 1 - lo)
    bits w 6 0 = sp.opcode.toNat ∧
    (∀ c, sp.funct3 = some c → bits w 14 12 = c.toNat) ∧
    (∀ c, sp.funct7 = some c → bits w 31 25 = c.toNat) ∧
    match sp.format with
    | .r => bits w 11 7 = f.rd.toNat ∧ bits w 19 15 = f.rs1.toNat ∧ bits w 24 20 = f.rs2.toNat
    | .i => bits w 11 7 = f.rd.toNat ∧ bits w 19 15 = f.rs1.toNat ∧ bits w 31 20 = u 12
    | .i2 => bits w 11 7 = f.rd.toNat ∧ bits w 19 15 = f.rs1.toNat ∧
        (bits w 24 20 : Int) = f.imm
    | .s => bits w 19 15 = f.rs1.toNat ∧ bits w 24 20 = f.rs2.toNat ∧
        bits w 31 25 = b 12 11 5 ∧ bits w 11 7 = b 12 4 0
    | .b => bits w 19 15 = f.rs1.toNat ∧ bits w 24 20 = f.rs2.toNat ∧
        bits w 31 31 = b 13 12 12 ∧ bits w 30 25 = b 13 10 5 ∧ bits w 11 8 = b 13 4 1 ∧
        bits w 7 7 = b 13 11 11
    | .u => bits w 11 7 = f.rd.toNat ∧ (bits w 31 12 : Int) = f.imm / 4096
    | .j => bits w 11 7 = f.rd.toNat ∧ bits w 31 31 = b 21 20 20 ∧ bits w 30 21 = b 21 10 1 ∧
        bits w 20 20 = b 21 11 11 ∧ bits w 19 12 = b 21 19 12

/-- One word of each family, written out bit by bit from R59 to R65 and R75. -/
def Obligations.SampleWordsDecode : Prop :=
  -- ADD x1, x2, x3: funct7, rs2, rs1, funct3, rd, opcode (the source's own example)
  decodeBinary 0b0000000_00011_00010_000_00001_0110011#32 = .ok (.add 1 2 3) ∧
  -- ADDI x1, x0, -1: imm[11:0], rs1, funct3, rd, opcode
  decodeBinary 0b111111111111_00000_000_00001_0010011#32 = .ok (.addi 1 0 ⟨-1, by decide⟩) ∧
  -- SRAI x3, x1, 31: funct7, shamt, rs1, funct3, rd, opcode
  decodeBinary 0b0100000_11111_00001_101_00011_0010011#32 = .ok (.srai 3 1 ⟨31, by decide⟩) ∧
  -- LW x5, -16(x1)
  decodeBinary 0b111111110000_00001_010_00101_0000011#32 = .ok (.lw 5 1 ⟨-16, by decide⟩) ∧
  -- SH x2, -2(x1): imm[11:5], rs2, rs1, funct3, imm[4:0], opcode
  decodeBinary 0b1111111_00010_00001_001_11110_0100011#32 = .ok (.sh 1 2 ⟨-2, by decide⟩) ∧
  -- BEQ x0, x0, 4094: imm[12], imm[10:5], rs2, rs1, funct3, imm[4:1], imm[11], opcode
  decodeBinary 0b0_111111_00000_00000_000_1111_1_1100011#32 = .ok (.beq 0 0 ⟨4094, by decide⟩) ∧
  -- LUI x5, 0xFFFFF: imm[31:12], rd, opcode
  decodeBinary 0b11111111111111111111_00101_0110111#32 = .ok (.lui 5 ⟨0xFFFFF000, by decide⟩) ∧
  -- JAL x0, -4: imm[20], imm[10:1], imm[11], imm[19:12], rd, opcode
  decodeBinary 0b1_1111111110_1_11111111_00000_1101111#32 = .ok (.jal 0 ⟨-4, by decide⟩) ∧
  -- JALR x1, 4(x5)
  decodeBinary 0b000000000100_00101_000_00001_1100111#32 = .ok (.jalr 1 5 ⟨4, by decide⟩)

/-! ### The text side -/

/-- R93: parseImmediate's outcomes, the alignment check first, over the value of the literal. -/
def Obligations.ParseImmediateOutcomes : Prop :=
  ∀ (lit : Text) (width loZero : Nat) (signed : Bool),
    (literalValue lit = none → parseImmediate lit width loZero signed = .error .malformedOperands) ∧
    (∀ v, literalValue lit = some v → v % 2 ^ loZero ≠ 0 →
      parseImmediate lit width loZero signed = .error .immediateMisaligned) ∧
    (∀ v, literalValue lit = some v → v % 2 ^ loZero = 0 →
      let inRange := if signed then -2 ^ (width - 1) ≤ v ∧ v ≤ 2 ^ (width - 1) - 1
        else 0 ≤ v ∧ v < 2 ^ width
      (inRange → parseImmediate lit width loZero signed = .ok v) ∧
      (¬inRange → parseImmediate lit width loZero signed = .error .immediateOutOfRange))

/-- From R92 and R100: a number as encodeText prints it reads back as itself, for every integer. -/
def Obligations.PrintedNumbersReadBack : Prop :=
  ∀ v : Int, literalValue (numberText v) = some v

/-- From R90, R91 and R99: every register's printed name names it, in either case and with white
space around it, and so do its ABI names. -/
def Obligations.RegisterNamesReadBack : Prop :=
  (∀ i : RegIdx, parseRegister (regText i) = .ok i ∧
    parseRegister (' ' :: (regText i).map Char.toUpper ++ [' ']) = .ok i) ∧
  (∀ e ∈ abiTable, parseRegister e.1 = .ok e.2) ∧
  (∀ i : RegIdx, ∃ e ∈ abiTable, e.2 = i) ∧
  parseRegister "x32".toList = .error .unknownRegister

/-- R102: every structured instruction parses back from its canonical text. -/
def Obligations.DecodeTextOfEncodeText : Prop :=
  ∀ i : Instr, decodeText (encodeText i) = .ok i

/-- From R82, R93 and D26: the operand parser refuses every record that is not valid, so that
decodeText refuses none after it: whatever operands it accepts are a structured instruction,
decodeText answers it, and what decodeText answers is valid. -/
def Obligations.AcceptedTextIsValid : Prop :=
  (∀ (m : Mnemonic) (operands : List Text) (f : Fields), parseOperands m operands = .ok f →
    f.WellFormed (specFor m).format ∧ ∃ i, instrOf m f = some i ∧ structured m f = .ok i) ∧
  (∀ (line : Text) (m : Mnemonic) (f : Fields),
    let t := trim (stripComment line)
    specForText (t.takeWhile fun c => !isSpace c) = .ok m →
    parseOperands m ((splitCommas (t.dropWhile fun c => !isSpace c)).map trim) = .ok f →
    ∃ i, decodeText line = .ok i ∧ instrOf m f = some i) ∧
  (∀ (line : Text) (i : Instr), decodeText line = .ok i →
    i.fields.WellFormed (specFor i.mnemonic).format)

/-- From R103 and R104: assembling the canonical text of an instruction displays its word, and
disassembling that display, in any address label format, gives the label of address 0 and the
canonical text. -/
def Obligations.AssembleThenDisassemble : Prop :=
  ∀ (i : Instr) (fmt : AddrLabelFormat),
    assembleText [encodeText i] = [displayWord (encode i)] ∧
    disassembleText fmt [displayWord (encode i)] = [addrLabel fmt 0 ++ encodeText i]

/-- From R103 to R105: both transforms give one line for each line, each by its own input line: a
line of assembleText is blank where nothing is left after comment and label, the display of the word
where the instruction parses, and else ERROR. Line `k` of disassembleText is blank for a blank line;
for any other it is the label of 4 times the number of lines before it that are not blank, failing
ones included, and then ERROR for a line that is not exactly 8 hexadecimal digits or whose word does
not decode, and else the canonical text of the instruction its four bytes, least significant first,
decode to. -/
def Obligations.TransformsKeepLines : Prop :=
  (∀ lines : List Text, (assembleText lines).length = lines.length) ∧
  (∀ (lines : List Text) (k : Nat) (line : Text), lines[k]? = some line →
    let t := trim (afterLastColon (stripComment line))
    (t = [] → (assembleText lines)[k]? = some []) ∧
    (∀ i, t ≠ [] → decodeText t = .ok i →
      (assembleText lines)[k]? = some (displayWord (encode i))) ∧
    (t ≠ [] → (∀ i, decodeText t ≠ .ok i) → (assembleText lines)[k]? = some "ERROR".toList)) ∧
  (∀ (fmt : AddrLabelFormat) (lines : List Text),
    (disassembleText fmt lines).length = lines.length) ∧
  (∀ (fmt : AddrLabelFormat) (lines : List Text) (k : Nat) (line : Text),
    lines[k]? = some line →
    let blank := fun l : Text => l.all fun ch => isSpace ch || ch == '_'
    (disassembleText fmt lines)[k]? = some (
      if blank line then []
      else addrLabel fmt (4 * (lines.take k).countP fun l => !blank l) ++
        disassembleBody (line.filter fun ch => !isSpace ch && ch != '_'))) ∧
  (∀ c : Text, c.length ≠ 8 ∨ (∃ ch ∈ c, ch ∉ "0123456789abcdefABCDEF".toList) →
    disassembleBody c = "ERROR".toList) ∧
  (∀ (c : Text) (h0 l0 h1 l1 h2 l2 h3 l3 : Nat) (w : Word),
    c.map hexDigit = [some h0, some l0, some h1, some l1, some h2, some l2, some h3, some l3] →
    w.toNat = (16 * h0 + l0) + (16 * h1 + l1) * 2 ^ 8 + (16 * h2 + l2) * 2 ^ 16 +
      (16 * h3 + l3) * 2 ^ 24 →
    (∀ i, decodeBinary w = .ok i → disassembleBody c = encodeText i) ∧
    (∀ k, decodeBinary w = .error k → disassembleBody c = "ERROR".toList))
end

