-- ==== Sys2Proof/Laws/Bits.lean ====
section
/-! SUPPORT. Words and integers: what u32, s32 and sext do, and the ALU and the comparator over
integers. -/

namespace Sys2Proof

@[simp] theorem u32_toNat (v : Word) : u32 (v.toNat : Int) = v := by
  apply BitVec.eq_of_toNat_eq; simp [u32]

theorem u32_add (a b : Int) : u32 (a + b) = u32 a + u32 b := BitVec.ofInt_add _ _

theorem u32_toInt (v : Word) : u32 v.toInt = v := BitVec.ofInt_toInt

/-- The unsigned value of `u32 v` is v modulo 2^32. -/
theorem toNat_u32 (v : Int) : ((u32 v).toNat : Int) = v % 2 ^ 32 := by
  simp only [u32, BitVec.toNat_ofInt]
  have : (0 : Int) ≤ v % ((2 ^ 32 : Nat) : Int) := Int.emod_nonneg _ (by decide)
  rw [Int.toNat_of_nonneg this]; rfl

/-- A number in the signed 32-bit range reads back signed. -/
theorem toInt_u32 {v : Int} (h : -2 ^ 31 ≤ v) (h' : v < 2 ^ 31) : (u32 v).toInt = v := by
  simp only [u32, BitVec.toInt_ofInt]
  apply Int.bmod_eq_of_le <;> norm_num at * <;> omega

theorem s32_u32 {v : Int} (h : -2 ^ 31 ≤ v) (h' : v < 2 ^ 31) : s32 (u32 v) = v := toInt_u32 h h'

theorem u32_ofNat (n : Nat) : u32 (n : Int) = BitVec.ofNat 32 n := by
  apply BitVec.eq_of_toNat_eq
  have := toNat_u32 (n : Int)
  simp only [BitVec.toNat_ofNat]; omega

/-- Words are equal when their unsigned values are, as integers. -/
theorem word_eq_of_toNat_int {x y : Word} (h : (x.toNat : Int) = y.toNat) : x = y :=
  BitVec.eq_of_toNat_eq (by exact_mod_cast h)

/-- A word plus an integer, as R24 says it: the unbounded sum modulo 2^32. -/
theorem u32_word_add (w : Word) (v : Int) : u32 (w.toNat + v) = w + u32 v := by
  rw [u32_add, u32_toNat]

theorem u32_word_add_four (w : Word) : u32 (w.toNat + 4) = w + 4#32 := u32_word_add w 4

/-- Byte `k` of a word is its k-th digit to base 256 (R39). -/
theorem byteOf_eq (v : Word) (k : Nat) : byteOf v k = BitVec.ofNat 8 (v.toNat / 2 ^ (8 * k)) := by
  apply BitVec.eq_of_toNat_eq
  simp [byteOf, Nat.shiftRight_eq_div_pow]

theorem sextN_toNat {n : Nat} (x : BitVec n) : sextN n x.toNat = x.toInt := by
  simp [sextN]

/-- A word is put back together from its four bytes (R42). -/
theorem wordOfBytes_byteOf (w : Word) :
    wordOfBytes (byteOf w 0) (byteOf w 1) (byteOf w 2) (byteOf w 3) = w := by
  apply BitVec.eq_of_getLsbD_eq
  intro i hi
  simp only [wordOfBytes, byteOf, BitVec.getLsbD_append, BitVec.getLsbD_setWidth,
    BitVec.getLsbD_ushiftRight]
  interval_cases i <;> simp

namespace Machine

/-- An immediate shift amount is its own low 5 bits (R108). -/
theorem shiftAmount_u32 {imm : Nat} (h : imm ≤ 31) : shiftAmount (u32 (imm : Int)) = imm := by
  rw [u32_ofNat]; simp only [shiftAmount, BitVec.toNat_ofNat]; omega

theorem alu_slt (a b : Word) : alu .slt a b = if s32 a < s32 b then 1#32 else 0#32 := by
  simp only [alu, BitVec.slt, s32]; by_cases h : a.toInt < b.toInt <;> simp [h]

theorem alu_sltu (a b : Word) : alu .sltu a b = if a.toNat < b.toNat then 1#32 else 0#32 := by
  simp only [alu, BitVec.ult]; by_cases h : a.toNat < b.toNat <;> simp [h]

theorem alu_sll (a b : Word) :
    alu .sll a b = u32 ((a.toNat : Int) * 2 ^ (b.toNat % 32)) := by
  apply word_eq_of_toNat_int
  rw [toNat_u32]
  simp only [alu, shiftAmount, BitVec.toNat_shiftLeft, Nat.shiftLeft_eq]
  push_cast; rfl

theorem alu_srl (a b : Word) :
    alu .srl a b = u32 ((a.toNat : Int) / 2 ^ (b.toNat % 32)) := by
  have h : a.toNat / 2 ^ (b.toNat % 32) < 2 ^ 32 := lt_of_le_of_lt (Nat.div_le_self _ _) a.isLt
  have e : (a.toNat : Int) / 2 ^ (b.toNat % 32) = ((a.toNat / 2 ^ (b.toNat % 32) : Nat) : Int) := by
    push_cast; rfl
  rw [e, u32_ofNat]
  apply BitVec.eq_of_toNat_eq
  simp only [alu, shiftAmount, BitVec.toNat_ushiftRight, Nat.shiftRight_eq_div_pow,
    BitVec.toNat_ofNat, Nat.mod_eq_of_lt h]

/-- An arithmetic right shift rounds towards minus infinity (R121). -/
theorem alu_sra (a b : Word) : alu .sra a b = u32 (s32 a / 2 ^ (b.toNat % 32)) := by
  have h := BitVec.toInt_sshiftRight (x := a) (n := b.toNat % 32)
  rw [Int.shiftRight_eq_div_pow] at h
  rw [← u32_toInt (alu .sra a b)]
  simp only [alu, shiftAmount, h, s32]
  push_cast; rfl

/-! ### The comparator over integers (R151) -/

theorem branchHolds_eq (a b : Word) : branchHolds .eq a b = decide (a.toNat = b.toNat) := by
  simp only [branchHolds]
  by_cases h : a = b
  · simp [h]
  · rw [decide_eq_false fun e => h (BitVec.eq_of_toNat_eq e)]; simpa using h

theorem branchHolds_ne (a b : Word) : branchHolds .ne a b = decide (a.toNat ≠ b.toNat) := by
  simp only [branchHolds]
  by_cases h : a = b
  · simp [h]
  · have h' : a.toNat ≠ b.toNat := fun e => h (BitVec.eq_of_toNat_eq e)
    rw [decide_eq_true h']; simpa using h

theorem branchHolds_lt (a b : Word) : branchHolds .lt a b = decide (s32 a < s32 b) := rfl

theorem branchHolds_ge (a b : Word) : branchHolds .ge a b = decide (s32 a ≥ s32 b) := by
  simp only [branchHolds, BitVec.slt, s32]
  by_cases h : a.toInt < b.toInt
  · simp [h]
  · simp [h]; exact Int.not_lt.1 h

theorem branchHolds_ltu (a b : Word) : branchHolds .ltu a b = decide (a.toNat < b.toNat) := rfl

theorem branchHolds_geu (a b : Word) : branchHolds .geu a b = decide (a.toNat ≥ b.toNat) := by
  simp only [branchHolds, BitVec.ult]
  by_cases h : a.toNat < b.toNat
  · simp [h]
  · simp [h]; exact Nat.not_lt.1 h

end Machine

end Sys2Proof
end

