-- ==== Sys2Proof/Laws/Cells.lean ====
section
/-! SUPPORT. Cells: reading after a change, the canonical order, and that two canonical lists that
read alike are equal. -/

namespace Sys2Proof.Machine

variable {α : Type}

@[simp] theorem cellAt_nil (k : Nat) : cellAt k ([] : List (Nat × α)) = none := rfl

theorem cellAt_cons (k : Nat) (c : Nat × α) (rest : List (Nat × α)) :
    cellAt k (c :: rest) = if c.1 = k then some c.2 else cellAt k rest := rfl

/-- A read after a change: the number listed reads as the value, every other as before. -/
theorem cellAt_putCell (k j : Nat) (v : α) (cells : List (Nat × α)) :
    cellAt j (putCell k v cells) = if k = j then some v else cellAt j cells := by
  induction cells with
  | nil => simp [putCell, cellAt]
  | cons c rest ih =>
    simp only [putCell]
    split
    · simp [cellAt_cons]
    · split
      · rename_i _ h; subst h; simp only [cellAt_cons]; split <;> simp_all
      · rename_i h1 h2
        simp only [cellAt_cons, ih]
        split
        · rename_i h3; subst h3; simp [h2]
        · rfl

theorem cellAt_dropCell (k j : Nat) (cells : List (Nat × α)) :
    cellAt j (dropCell k cells) = if k = j then none else cellAt j cells := by
  induction cells with
  | nil => simp [dropCell]
  | cons c rest ih =>
    unfold dropCell at ih ⊢
    by_cases hk : c.1 = k
    · rw [List.filter_cons_of_neg (by simp [hk]), ih, cellAt_cons]
      split <;> simp_all
    · rw [List.filter_cons_of_pos (by simp [hk]), cellAt_cons, ih, cellAt_cons]
      split
      · rename_i h; subst h; rw [if_neg (Ne.symm hk)]
      · rfl

/-- What a listing after `putCell` may hold. -/
theorem mem_putCell {k : Nat} {v : α} {cells : List (Nat × α)} {c : Nat × α}
    (h : c ∈ putCell k v cells) : c = (k, v) ∨ c ∈ cells := by
  induction cells with
  | nil => simpa [putCell] using h
  | cons d rest ih =>
    simp only [putCell] at h
    split at h
    · simpa using h
    · split at h
      · rcases List.mem_cons.1 h with h | h
        · exact .inl h
        · exact .inr (List.mem_cons_of_mem _ h)
      · rcases List.mem_cons.1 h with h | h
        · exact .inr (h ▸ List.mem_cons_self)
        · exact (ih h).imp_right (List.mem_cons_of_mem _)

theorem mem_dropCell {k : Nat} {cells : List (Nat × α)} {c : Nat × α}
    (h : c ∈ dropCell k cells) : c ∈ cells := List.mem_of_mem_filter h

theorem rising_putCell {cells : List (Nat × α)} (h : Rising cells) (k : Nat) (v : α) :
    Rising (putCell k v cells) := by
  induction cells with
  | nil => simp [putCell, Rising]
  | cons d rest ih =>
    obtain ⟨hd, hr⟩ := List.pairwise_cons.1 h
    simp only [putCell]
    split
    · rename_i hlt
      refine List.pairwise_cons.2 ⟨fun c hc => ?_, h⟩
      rcases List.mem_cons.1 hc with rfl | hc
      · exact hlt
      · exact hlt.trans (hd c hc)
    · split
      · rename_i _ he; subst he
        exact List.pairwise_cons.2 ⟨hd, hr⟩
      · rename_i h1 h2
        refine List.pairwise_cons.2 ⟨fun c hc => ?_, ih hr⟩
        rcases mem_putCell hc with rfl | hc
        · show d.1 < k; omega
        · exact hd c hc

theorem rising_dropCell {cells : List (Nat × α)} (h : Rising cells) (k : Nat) :
    Rising (dropCell k cells) := List.Pairwise.filter _ h

theorem cellAt_eq_some_of_mem {cells : List (Nat × α)} (h : Rising cells) {c : Nat × α}
    (hc : c ∈ cells) : cellAt c.1 cells = some c.2 := by
  induction cells with
  | nil => cases hc
  | cons d rest ih =>
    obtain ⟨hd, hr⟩ := List.pairwise_cons.1 h
    rcases List.mem_cons.1 hc with rfl | hc
    · simp [cellAt_cons]
    · have hlt := hd c hc
      rw [cellAt_cons, if_neg (by omega), ih hr hc]

theorem mem_of_cellAt_eq_some {cells : List (Nat × α)} {k : Nat} {v : α}
    (h : cellAt k cells = some v) : (k, v) ∈ cells := by
  induction cells with
  | nil => simp at h
  | cons d rest ih =>
    rw [cellAt_cons] at h
    split at h
    · rename_i he
      simp only [Option.some.injEq] at h
      subst he; subst h; exact List.mem_cons_self
    · exact List.mem_cons_of_mem _ (ih h)

/-- Nothing is listed below the least number of a rising list. -/
theorem cellAt_eq_none_of_lt {cells : List (Nat × α)} {k : Nat}
    (h : ∀ c ∈ cells, k < c.1) : cellAt k cells = none := by
  induction cells with
  | nil => rfl
  | cons d rest ih =>
    have := h d List.mem_cons_self
    rw [cellAt_cons, if_neg (by omega), ih fun c hc => h c (List.mem_cons_of_mem _ hc)]

/-- Canonical lists that read alike are equal. -/
theorem rising_ext {xs ys : List (Nat × α)} (hx : Rising xs) (hy : Rising ys)
    (h : ∀ k, cellAt k xs = cellAt k ys) : xs = ys := by
  induction xs generalizing ys with
  | nil =>
    cases ys with
    | nil => rfl
    | cons d rest => simpa [cellAt_cons] using h d.1
  | cons c rest ih =>
    cases ys with
    | nil => simpa [cellAt_cons] using h c.1
    | cons d rest' =>
      obtain ⟨hc, hr⟩ := List.pairwise_cons.1 hx
      obtain ⟨hd, hr'⟩ := List.pairwise_cons.1 hy
      have hcd : c.1 = d.1 := by
        rcases Nat.lt_trichotomy c.1 d.1 with hlt | he | hlt
        · have := h c.1
          rw [cellAt_cons, if_pos rfl, cellAt_eq_none_of_lt] at this
          · cases this
          · intro e he
            rcases List.mem_cons.1 he with rfl | he
            · exact hlt
            · exact hlt.trans (hd e he)
        · exact he
        · have := h d.1
          rw [cellAt_cons, if_neg (by omega), cellAt_cons, if_pos rfl, cellAt_eq_none_of_lt] at this
          · cases this
          · intro e he; exact hlt.trans (hc e he)
      have hv : c.2 = d.2 := by
        have := h c.1
        rw [cellAt_cons, if_pos rfl, cellAt_cons, if_pos hcd.symm] at this
        exact Option.some.inj this
      have hcd' : c = d := Prod.ext hcd hv
      subst hcd'
      congr 1
      refine ih hr hr' fun k => ?_
      have hk := h k
      simp only [cellAt_cons] at hk
      split at hk
      · rename_i he; subst he
        rw [cellAt_eq_none_of_lt hc, cellAt_eq_none_of_lt hd]
      · exact hk

/-- The slots of a loaded program (R46): word `i` in slot `first + i`, nothing else. -/
theorem cellAt_programSlots (words : List Word) (first k : Nat) :
    cellAt k (programSlots first words) = if k < first then none else words[k - first]? := by
  induction words generalizing first with
  | nil => simp [programSlots]
  | cons w rest ih =>
    simp only [programSlots, cellAt_cons, ih]
    rcases Nat.lt_trichotomy k first with hlt | rfl | hgt
    · rw [if_neg (by omega), if_pos (by omega), if_pos hlt]
    · simp
    · rw [if_neg (by omega), if_neg (by omega), if_neg (by omega)]
      obtain ⟨m, hm⟩ : ∃ m, k - first = m + 1 := ⟨k - first - 1, by omega⟩
      rw [hm, show k - (first + 1) = m by omega]; simp

theorem bound_programSlots (words : List Word) (first : Nat) :
    ∀ c ∈ programSlots first words, first ≤ c.1 ∧ c.1 < first + words.length := by
  induction words generalizing first with
  | nil => simp [programSlots]
  | cons w rest ih =>
    intro c hc
    rcases List.mem_cons.1 hc with rfl | hc
    · simp
    · have := ih (first + 1) c hc
      simp only [List.length_cons]; omega

theorem rising_programSlots (words : List Word) (first : Nat) :
    Rising (programSlots first words) := by
  induction words generalizing first with
  | nil => exact List.Pairwise.nil
  | cons w rest ih =>
    refine List.pairwise_cons.2 ⟨fun c hc => ?_, ih _⟩
    have := bound_programSlots rest (first + 1) c hc
    show first < c.1; omega

end Sys2Proof.Machine
end

