-- ==== Sys2Proof/Laws/Decode.lean ====
section
/-! SUPPORT. The decoder and the encoder, said once: which fields stand in an encoded word, how a
word is put together from its fields, and which mnemonic a word's selectors resolve to. -/

namespace Sys2Proof

/-! ### Reading back an integer in range -/

theorem toInt_ofInt_of_range {n : Nat} {v : Int} (hn : 0 < n) (h : -2 ^ (n - 1) ≤ v)
    (h' : v < 2 ^ (n - 1)) : (BitVec.ofInt n v).toInt = v := by
  rw [BitVec.toInt_ofInt]
  obtain ⟨k, rfl⟩ : ∃ k, n = k + 1 := ⟨n - 1, by omega⟩
  have e : (2 : Int) ^ (k + 1) = 2 * 2 ^ k := by ring
  apply Int.bmod_eq_of_le <;> push_cast <;> simp only [Nat.add_sub_cancel] at h h' <;> omega

theorem getLsbD_zero_ofInt {n : Nat} {v : Int} (hn : 0 < n) (h : v % 2 = 0) :
    (BitVec.ofInt n v).getLsbD 0 = false := by
  have hd : (2 : Int) ∣ ((2 ^ n : Nat) : Int) := by
    obtain ⟨k, rfl⟩ : ∃ k, n = k + 1 := ⟨n - 1, by omega⟩
    exact ⟨2 ^ k, by push_cast; ring⟩
  have h0 : (0 : Int) ≤ v % ((2 ^ n : Nat) : Int) := Int.emod_nonneg _ (by positivity)
  have hp : (v % ((2 ^ n : Nat) : Int)) % 2 = 0 := by rw [Int.emod_emod_of_dvd _ hd, h]
  unfold BitVec.getLsbD
  rw [BitVec.toNat_ofInt, Nat.testBit_zero]
  have : (v % ((2 ^ n : Nat) : Int)).toNat % 2 = 0 := by omega
  rw [this]; rfl

/-! ### The decoded immediates as numbers (R68 to R73) -/

theorem immI_val (w : Word) : (immI w).val = (w.extractLsb 31 20).toInt := rfl
theorem immI2_val (w : Word) : (immI2 w).val = (w.extractLsb 24 20).toNat := rfl
theorem immS_val (w : Word) :
    (immS w).val = (w.extractLsb 31 25 ++ w.extractLsb 11 7).toInt := rfl
theorem immB_val (w : Word) :
    (immB w).val = (w.extractLsb 31 31 ++ w.extractLsb 7 7 ++ w.extractLsb 30 25 ++
      w.extractLsb 11 8 ++ 0#1).toInt := rfl
theorem immU_val (w : Word) : (immU w).val = (w.extractLsb 31 12).toNat * 4096 := rfl
theorem immJ_val (w : Word) :
    (immJ w).val = (w.extractLsb 31 31 ++ w.extractLsb 19 12 ++ w.extractLsb 20 20 ++
      w.extractLsb 30 21 ++ 0#1).toInt := rfl

/-! ### Fields of an encoded word (R59 to R65) -/

section
variable (m : Mnemonic) (rd rs1 rs2 : RegIdx)

theorem encodeR_fields :
    opcodeOf (encodeR m rd rs1 rs2) = (specFor m).opcode ∧
    funct3Of (encodeR m rd rs1 rs2) = funct3For m ∧
    funct7Of (encodeR m rd rs1 rs2) = funct7For m ∧
    rdOf (encodeR m rd rs1 rs2) = rd ∧ rs1Of (encodeR m rd rs1 rs2) = rs1 ∧
    rs2Of (encodeR m rd rs1 rs2) = rs2 := by
  refine ⟨?_, ?_, ?_, ?_, ?_, ?_⟩ <;> apply BitVec.eq_of_getLsbD_eq <;> intro i hi <;>
    simp only [encodeR, opcodeOf, funct3Of, funct7Of, rdOf, rs1Of, rs2Of,
      BitVec.getLsbD_extractLsb, BitVec.getLsbD_append] <;> interval_cases i <;> simp

theorem encodeI_fields (imm : ImmI) :
    opcodeOf (encodeI m rd rs1 imm) = (specFor m).opcode ∧
    funct3Of (encodeI m rd rs1 imm) = funct3For m ∧
    rdOf (encodeI m rd rs1 imm) = rd ∧ rs1Of (encodeI m rd rs1 imm) = rs1 ∧
    (encodeI m rd rs1 imm).extractLsb 31 20 = BitVec.ofInt 12 imm.val := by
  refine ⟨?_, ?_, ?_, ?_, ?_⟩ <;> apply BitVec.eq_of_getLsbD_eq <;> intro i hi <;>
    simp only [encodeI, opcodeOf, funct3Of, rdOf, rs1Of,
      BitVec.getLsbD_extractLsb, BitVec.getLsbD_append] <;> interval_cases i <;> simp

theorem encodeI2_fields (imm : Shamt) :
    opcodeOf (encodeI2 m rd rs1 imm) = (specFor m).opcode ∧
    funct3Of (encodeI2 m rd rs1 imm) = funct3For m ∧
    funct7Of (encodeI2 m rd rs1 imm) = funct7For m ∧
    rdOf (encodeI2 m rd rs1 imm) = rd ∧ rs1Of (encodeI2 m rd rs1 imm) = rs1 ∧
    (encodeI2 m rd rs1 imm).extractLsb 24 20 = BitVec.ofNat 5 imm.val := by
  refine ⟨?_, ?_, ?_, ?_, ?_, ?_⟩ <;> apply BitVec.eq_of_getLsbD_eq <;> intro i hi <;>
    simp only [encodeI2, opcodeOf, funct3Of, funct7Of, rdOf, rs1Of,
      BitVec.getLsbD_extractLsb, BitVec.getLsbD_append] <;> interval_cases i <;> simp

theorem encodeS_fields (imm : ImmI) :
    opcodeOf (encodeS m rs1 rs2 imm) = (specFor m).opcode ∧
    funct3Of (encodeS m rs1 rs2 imm) = funct3For m ∧
    rs1Of (encodeS m rs1 rs2 imm) = rs1 ∧ rs2Of (encodeS m rs1 rs2 imm) = rs2 ∧
    (encodeS m rs1 rs2 imm).extractLsb 31 25 ++ (encodeS m rs1 rs2 imm).extractLsb 11 7
      = BitVec.ofInt 12 imm.val := by
  refine ⟨?_, ?_, ?_, ?_, ?_⟩ <;> apply BitVec.eq_of_getLsbD_eq <;> intro i hi <;>
    simp only [encodeS, opcodeOf, funct3Of, rs1Of, rs2Of,
      BitVec.getLsbD_extractLsb, BitVec.getLsbD_append] <;> interval_cases i <;> simp

theorem encodeB_fields (imm : ImmB) :
    opcodeOf (encodeB m rs1 rs2 imm) = (specFor m).opcode ∧
    funct3Of (encodeB m rs1 rs2 imm) = funct3For m ∧
    rs1Of (encodeB m rs1 rs2 imm) = rs1 ∧ rs2Of (encodeB m rs1 rs2 imm) = rs2 := by
  refine ⟨?_, ?_, ?_, ?_⟩ <;> apply BitVec.eq_of_getLsbD_eq <;> intro i hi <;>
    simp only [encodeB, opcodeOf, funct3Of, rs1Of, rs2Of,
      BitVec.getLsbD_extractLsb, BitVec.getLsbD_append] <;> interval_cases i <;> simp

/-- The branch immediate's bits come back together, bit 0 as 0. -/
theorem encodeB_imm (imm : ImmB) :
    (encodeB m rs1 rs2 imm).extractLsb 31 31 ++ (encodeB m rs1 rs2 imm).extractLsb 7 7 ++
      (encodeB m rs1 rs2 imm).extractLsb 30 25 ++ (encodeB m rs1 rs2 imm).extractLsb 11 8 ++ 0#1
      = BitVec.ofInt 13 imm.val := by
  apply BitVec.eq_of_getLsbD_eq
  intro i hi
  simp only [encodeB, BitVec.getLsbD_extractLsb, BitVec.getLsbD_append]
  interval_cases i
  · rw [getLsbD_zero_ofInt (by decide) imm.2.2.2]; simp
  all_goals simp

theorem encodeU_fields (imm : ImmU) :
    opcodeOf (encodeU m rd imm) = (specFor m).opcode ∧ rdOf (encodeU m rd imm) = rd ∧
    (encodeU m rd imm).extractLsb 31 12 = BitVec.ofNat 20 (imm.val / 4096) := by
  refine ⟨?_, ?_, ?_⟩ <;> apply BitVec.eq_of_getLsbD_eq <;> intro i hi <;>
    simp only [encodeU, opcodeOf, rdOf,
      BitVec.getLsbD_extractLsb, BitVec.getLsbD_append] <;> interval_cases i <;> simp

theorem encodeJ_fields (imm : ImmJ) :
    opcodeOf (encodeJ m rd imm) = (specFor m).opcode ∧ rdOf (encodeJ m rd imm) = rd := by
  refine ⟨?_, ?_⟩ <;> apply BitVec.eq_of_getLsbD_eq <;> intro i hi <;>
    simp only [encodeJ, opcodeOf, rdOf,
      BitVec.getLsbD_extractLsb, BitVec.getLsbD_append] <;> interval_cases i <;> simp

/-- The jump immediate's bits come back together, bit 0 as 0. -/
theorem encodeJ_imm (imm : ImmJ) :
    (encodeJ m rd imm).extractLsb 31 31 ++ (encodeJ m rd imm).extractLsb 19 12 ++
      (encodeJ m rd imm).extractLsb 20 20 ++ (encodeJ m rd imm).extractLsb 30 21 ++ 0#1
      = BitVec.ofInt 21 imm.val := by
  apply BitVec.eq_of_getLsbD_eq
  intro i hi
  simp only [encodeJ, BitVec.getLsbD_extractLsb, BitVec.getLsbD_append]
  interval_cases i
  · rw [getLsbD_zero_ofInt (by decide) imm.2.2.2]; simp
  all_goals simp

end

/-! ### A word put together from its own fields -/

section
variable {w : Word} {m : Mnemonic} (ho : (specFor m).opcode = opcodeOf w)
include ho

theorem encodeR_self (h3 : funct3For m = funct3Of w) (h7 : funct7For m = funct7Of w) :
    encodeR m (rdOf w) (rs1Of w) (rs2Of w) = w := by
  unfold encodeR
  rw [ho, h3, h7]
  apply BitVec.eq_of_getLsbD_eq
  intro i hi
  simp only [BitVec.getLsbD_append, rs1Of, rs2Of, funct3Of, opcodeOf, rdOf, funct7Of,
    BitVec.getLsbD_extractLsb]
  interval_cases i <;> simp

theorem encodeI_self (h3 : funct3For m = funct3Of w) :
    encodeI m (rdOf w) (rs1Of w) (immI w) = w := by
  unfold encodeI
  rw [ho, h3, immI_val, BitVec.ofInt_toInt]
  apply BitVec.eq_of_getLsbD_eq
  intro i hi
  simp only [BitVec.getLsbD_append, rs1Of, funct3Of, opcodeOf, rdOf, BitVec.getLsbD_extractLsb]
  interval_cases i <;> simp

theorem encodeI2_self (h3 : funct3For m = funct3Of w) (h7 : funct7For m = funct7Of w) :
    encodeI2 m (rdOf w) (rs1Of w) (immI2 w) = w := by
  unfold encodeI2
  rw [ho, h3, h7, immI2_val, BitVec.ofNat_toNat, BitVec.setWidth_eq]
  apply BitVec.eq_of_getLsbD_eq
  intro i hi
  simp only [BitVec.getLsbD_append, rs1Of, funct3Of, funct7Of, opcodeOf, rdOf,
    BitVec.getLsbD_extractLsb]
  interval_cases i <;> simp

theorem encodeS_self (h3 : funct3For m = funct3Of w) :
    encodeS m (rs1Of w) (rs2Of w) (immS w) = w := by
  unfold encodeS
  rw [ho, h3, immS_val, BitVec.ofInt_toInt]
  apply BitVec.eq_of_getLsbD_eq
  intro i hi
  simp only [BitVec.getLsbD_append, rs1Of, rs2Of, funct3Of, opcodeOf, BitVec.getLsbD_extractLsb]
  interval_cases i <;> simp

theorem encodeB_self (h3 : funct3For m = funct3Of w) :
    encodeB m (rs1Of w) (rs2Of w) (immB w) = w := by
  unfold encodeB
  rw [ho, h3, immB_val, BitVec.ofInt_toInt]
  apply BitVec.eq_of_getLsbD_eq
  intro i hi
  simp only [BitVec.getLsbD_append, rs1Of, rs2Of, funct3Of, opcodeOf, BitVec.getLsbD_extractLsb]
  interval_cases i <;> simp

theorem encodeU_self : encodeU m (rdOf w) (immU w) = w := by
  unfold encodeU
  rw [ho, immU_val, Nat.mul_div_cancel _ (by decide : 0 < 4096), BitVec.ofNat_toNat,
    BitVec.setWidth_eq]
  apply BitVec.eq_of_getLsbD_eq
  intro i hi
  simp only [BitVec.getLsbD_append, opcodeOf, rdOf, BitVec.getLsbD_extractLsb]
  interval_cases i <;> simp

theorem encodeJ_self : encodeJ m (rdOf w) (immJ w) = w := by
  unfold encodeJ
  rw [ho, immJ_val, BitVec.ofInt_toInt]
  apply BitVec.eq_of_getLsbD_eq
  intro i hi
  simp only [BitVec.getLsbD_append, opcodeOf, rdOf, BitVec.getLsbD_extractLsb]
  interval_cases i <;> simp

end

/-! ### Selectors and resolve (R78) -/

/-- A mnemonic that resolve answers agrees with the word on every selector it has. -/
theorem matches_of_resolve {op : BitVec 7} {f3 : BitVec 3} {f7 : BitVec 7} {m : Mnemonic}
    (h : resolve op f3 f7 = .ok m) : (specFor m).matchesSelectors op f3 f7 = true := by
  unfold resolve at h
  split at h
  · cases h
  · rename_i m' hc
    cases h
    have : m ∈ candidates op f3 f7 := by rw [hc]; exact List.mem_singleton.2 rfl
    exact (List.mem_filter.1 this).2
  · cases h

/-- Whatever matches, resolve answers it: no two rows match one word (R76). -/
theorem resolve_of_matches {op : BitVec 7} {f3 : BitVec 3} {f7 : BitVec 7} {m : Mnemonic}
    (h : (specFor m).matchesSelectors op f3 f7 = true) : resolve op f3 f7 = .ok m := by
  cases m <;>
    simp [InstructionSpec.matchesSelectors, specFor] at h <;>
    (obtain ⟨⟨rfl, rfl⟩, rfl⟩ := h; rfl)

/-- What a successful decode read: the mnemonic, and its fields from the word. -/
theorem decodeBinary_ok {w : Word} {i : Instr} (h : decodeBinary w = .ok i) :
    ∃ m, (specFor m).matchesSelectors (opcodeOf w) (funct3Of w) (funct7Of w) = true ∧
      i = fieldsOf m w := by
  unfold decodeBinary at h
  split at h
  · rename_i m hm; cases h; exact ⟨m, matches_of_resolve hm, rfl⟩
  · cases h

/-- A word whose selectors match a mnemonic decodes to that mnemonic's fields. -/
theorem decodeBinary_of_matches {w : Word} {m : Mnemonic}
    (h : (specFor m).matchesSelectors (opcodeOf w) (funct3Of w) (funct7Of w) = true) :
    decodeBinary w = .ok (fieldsOf m w) := by
  rw [decodeBinary, resolve_of_matches h]

/-! ### Reading an encoded immediate back -/

section
variable {m : Mnemonic} {rd rs1 rs2 : RegIdx}

@[simp] theorem immI_encodeI (imm : ImmI) : immI (encodeI m rd rs1 imm) = imm := by
  refine Subtype.ext ?_
  have h := imm.2
  rw [immI_val, (encodeI_fields m rd rs1 imm).2.2.2.2]
  exact toInt_ofInt_of_range (by decide) (by norm_num; omega) (by norm_num; omega)

@[simp] theorem immI2_encodeI2 (imm : Shamt) : immI2 (encodeI2 m rd rs1 imm) = imm := by
  refine Subtype.ext ?_
  have h : imm.val ≤ 31 := imm.2
  rw [immI2_val, (encodeI2_fields m rd rs1 imm).2.2.2.2.2, BitVec.toNat_ofNat]; omega

@[simp] theorem immS_encodeS (imm : ImmI) : immS (encodeS m rs1 rs2 imm) = imm := by
  refine Subtype.ext ?_
  have h := imm.2
  rw [immS_val, (encodeS_fields m rs1 rs2 imm).2.2.2.2]
  exact toInt_ofInt_of_range (by decide) (by norm_num; omega) (by norm_num; omega)

@[simp] theorem immB_encodeB (imm : ImmB) : immB (encodeB m rs1 rs2 imm) = imm := by
  refine Subtype.ext ?_
  have h := imm.2
  rw [immB_val, encodeB_imm m rs1 rs2 imm]
  exact toInt_ofInt_of_range (by decide) (by norm_num; omega) (by norm_num; omega)

@[simp] theorem immU_encodeU (imm : ImmU) : immU (encodeU m rd imm) = imm := by
  refine Subtype.ext ?_
  have h1 := imm.2.1
  have h2 := imm.2.2
  rw [immU_val, (encodeU_fields m rd imm).2.2, BitVec.toNat_ofNat]; omega

@[simp] theorem immJ_encodeJ (imm : ImmJ) : immJ (encodeJ m rd imm) = imm := by
  refine Subtype.ext ?_
  have h := imm.2
  rw [immJ_val, encodeJ_imm m rd imm]
  exact toInt_ofInt_of_range (by decide) (by norm_num; omega) (by norm_num; omega)

end

/-- What the decoder reads from a word is an instruction of the mnemonic resolved. -/
@[simp] theorem fieldsOf_mnemonic (m : Mnemonic) (w : Word) : (fieldsOf m w).mnemonic = m := by
  cases m <;> rfl

/-- resolve fails in one way only: no two rows match one word (C4). -/
theorem resolve_error {op : BitVec 7} {f3 : BitVec 3} {f7 : BitVec 7} {k : FaultKind}
    (h : resolve op f3 f7 = .error k) : k = .unknownEncoding := by
  unfold resolve at h
  split at h
  · cases h; rfl
  · cases h
  · rename_i m1 m2 rest hc
    have h1 : m1 ∈ candidates op f3 f7 := by rw [hc]; simp
    have h2 : m2 ∈ candidates op f3 f7 := by rw [hc]; simp
    have e1 := resolve_of_matches (List.mem_filter.1 h1).2
    rw [resolve_of_matches (List.mem_filter.1 h2).2] at e1
    cases e1
    have nodup : (candidates op f3 f7).Nodup := List.Nodup.filter _ (by decide)
    rw [hc] at nodup
    simp at nodup

end Sys2Proof
end

