-- ==== Sys2Proof/Laws/State.lean ====
section
/-! SUPPORT. What each operation leaves in each field of the state, one lemma per field and
update. -/

namespace Sys2Proof.Machine

variable (s : State)

/-! ### setPc, advance -/

@[simp] theorem State.setPc_pc (t : Word) : (s.setPc t).pc = t := rfl
@[simp] theorem State.setPc_status (t : Word) : (s.setPc t).status = s.status := rfl
@[simp] theorem State.setPc_x (t : Word) : (s.setPc t).x = s.x := rfl
@[simp] theorem State.setPc_mem (t : Word) : (s.setPc t).mem = s.mem := rfl
@[simp] theorem State.setPc_imem (t : Word) : (s.setPc t).imem = s.imem := rfl
@[simp] theorem State.setPc_config (t : Word) : (s.setPc t).config = s.config := rfl
@[simp] theorem State.setPc_readReg (t : Word) (i : RegIdx) :
    (s.setPc t).readReg i = s.readReg i := rfl
@[simp] theorem State.setPc_readByte (t : Word) (a : Nat) :
    (s.setPc t).readByte a = s.readByte a := rfl
@[simp] theorem State.setPc_byteAddr (t a : Word) (i : Nat) :
    (s.setPc t).byteAddr a i = s.byteAddr a i := rfl

@[simp] theorem State.pcPlus4_eq : s.pcPlus4 = s.pc + 4#32 := rfl
@[simp] theorem State.advance_eq : s.advance = s.setPc (s.pc + 4#32) := rfl

/-! ### writeReg -/

@[simp] theorem State.writeReg_zero (v : Word) : s.writeReg 0#5 v = s := rfl

@[simp] theorem State.writeReg_pc (i : RegIdx) (v : Word) : (s.writeReg i v).pc = s.pc := by
  unfold State.writeReg; split <;> rfl
@[simp] theorem State.writeReg_status (i : RegIdx) (v : Word) :
    (s.writeReg i v).status = s.status := by unfold State.writeReg; split <;> rfl
@[simp] theorem State.writeReg_mem (i : RegIdx) (v : Word) : (s.writeReg i v).mem = s.mem := by
  unfold State.writeReg; split <;> rfl
@[simp] theorem State.writeReg_imem (i : RegIdx) (v : Word) :
    (s.writeReg i v).imem = s.imem := by unfold State.writeReg; split <;> rfl
@[simp] theorem State.writeReg_config (i : RegIdx) (v : Word) :
    (s.writeReg i v).config = s.config := by unfold State.writeReg; split <;> rfl
@[simp] theorem State.writeReg_readByte (i : RegIdx) (v : Word) (a : Nat) :
    (s.writeReg i v).readByte a = s.readByte a := by simp [State.readByte]
@[simp] theorem State.writeReg_byteAddr (i : RegIdx) (v a : Word) (k : Nat) :
    (s.writeReg i v).byteAddr a k = s.byteAddr a k := by simp [State.byteAddr]

@[simp] theorem State.readReg_zero : s.readReg 0#5 = 0#32 := rfl

/-- The slot of a register other than x0. -/
theorem regSlot_lt {i : RegIdx} (h : i ≠ 0#5) : i.toNat - 1 < 31 ∧ 1 ≤ i.toNat := by
  have h1 := i.isLt
  have h2 : i.toNat ≠ 0 := fun h0 => h (BitVec.eq_of_toNat_eq (by simpa using h0))
  omega

/-- A register read after a write: the register written, unless it is x0, reads as the value and
every other as before (R16, R17). -/
theorem State.readReg_writeReg (i j : RegIdx) (v : Word) :
    (s.writeReg i v).readReg j = if j = i ∧ i ≠ 0#5 then v else s.readReg j := by
  unfold State.writeReg State.readReg
  by_cases hi : i = 0#5
  · simp [hi]
  · obtain ⟨hi1, hi2⟩ := regSlot_lt hi
    rw [if_neg hi]
    by_cases hj : j = 0#5
    · subst hj; rw [if_pos rfl, if_pos rfl, if_neg fun h => hi h.1.symm]
    · obtain ⟨hj1, hj2⟩ := regSlot_lt hj
      rw [if_neg hj, if_neg hj]
      by_cases hij : j = i
      · subst hij; simp [hi, Vector.getD, hj1]
      · have : i.toNat ≠ j.toNat := fun h => hij (BitVec.eq_of_toNat_eq h.symm)
        have : i.toNat - 1 ≠ j.toNat - 1 := by omega
        simp [hij, Vector.getD, hj1, this]

@[simp] theorem State.readReg_writeReg_self {i : RegIdx} (h : i ≠ 0#5) (v : Word) :
    (s.writeReg i v).readReg i = v := by
  rw [State.readReg_writeReg, if_pos ⟨rfl, h⟩]

theorem State.readReg_writeReg_ne {i j : RegIdx} (h : j ≠ i) (v : Word) :
    (s.writeReg i v).readReg j = s.readReg j := by simp [State.readReg_writeReg, h]

/-- The register file is what its registers read as. -/
theorem x_eq_of_readReg {s t : State} (h : ∀ i, s.readReg i = t.readReg i) : s.x = t.x := by
  refine Vector.ext fun k hk => ?_
  have := h (BitVec.ofNat 5 (k + 1))
  have hn : (BitVec.ofNat 5 (k + 1)).toNat = k + 1 := by simp; omega
  have h0 : BitVec.ofNat 5 (k + 1) ≠ 0#5 := fun h => by
    have := congrArg BitVec.toNat h; rw [hn] at this; simp at this
  unfold State.readReg at this
  rw [if_neg h0, if_neg h0, hn] at this
  simpa [Vector.getD, hk] using this

/-! ### finish: a result to rd and on to the next instruction -/

@[simp] theorem State.finish_eq (rd : RegIdx) (v : Word) :
    s.finish rd v = (s.writeReg rd v).setPc (s.pc + 4#32) := by
  simp [State.finish]

/-! ### writeByte, memWrite -/

@[simp] theorem State.writeByte_pc (a : Nat) (b : Byte) : (s.writeByte a b).pc = s.pc := rfl
@[simp] theorem State.writeByte_status (a : Nat) (b : Byte) :
    (s.writeByte a b).status = s.status := rfl
@[simp] theorem State.writeByte_x (a : Nat) (b : Byte) : (s.writeByte a b).x = s.x := rfl
@[simp] theorem State.writeByte_imem (a : Nat) (b : Byte) :
    (s.writeByte a b).imem = s.imem := rfl
@[simp] theorem State.writeByte_config (a : Nat) (b : Byte) :
    (s.writeByte a b).config = s.config := rfl
@[simp] theorem State.writeByte_mem (a : Nat) (b : Byte) :
    (s.writeByte a b).mem = s.mem.setByte a b := rfl
@[simp] theorem State.writeByte_readReg (a : Nat) (b : Byte) (i : RegIdx) :
    (s.writeByte a b).readReg i = s.readReg i := rfl
@[simp] theorem State.writeByte_byteAddr (k : Nat) (b : Byte) (a : Word) (i : Nat) :
    (s.writeByte k b).byteAddr a i = s.byteAddr a i := rfl

@[simp] theorem State.memWrite_zero (a v : Word) : s.memWrite a v 0 = s := rfl
theorem State.memWrite_succ (a v : Word) (n : Nat) :
    s.memWrite a v (n + 1) = (s.memWrite a v n).writeByte (s.byteAddr a n) (byteOf v n) := rfl

@[simp] theorem State.memWrite_pc (a v : Word) (n : Nat) : (s.memWrite a v n).pc = s.pc := by
  induction n <;> simp_all [State.memWrite_succ]
@[simp] theorem State.memWrite_status (a v : Word) (n : Nat) :
    (s.memWrite a v n).status = s.status := by induction n <;> simp_all [State.memWrite_succ]
@[simp] theorem State.memWrite_x (a v : Word) (n : Nat) : (s.memWrite a v n).x = s.x := by
  induction n <;> simp_all [State.memWrite_succ]
@[simp] theorem State.memWrite_imem (a v : Word) (n : Nat) :
    (s.memWrite a v n).imem = s.imem := by induction n <;> simp_all [State.memWrite_succ]
@[simp] theorem State.memWrite_config (a v : Word) (n : Nat) :
    (s.memWrite a v n).config = s.config := by induction n <;> simp_all [State.memWrite_succ]
@[simp] theorem State.memWrite_readReg (a v : Word) (n : Nat) (i : RegIdx) :
    (s.memWrite a v n).readReg i = s.readReg i := by simp [State.readReg]
@[simp] theorem State.memWrite_byteAddr (a v b : Word) (n i : Nat) :
    (s.memWrite a v n).byteAddr b i = s.byteAddr b i := by simp [State.byteAddr]

/-! ### haltRun, failRun -/

@[simp] theorem State.haltRun_status : s.haltRun.status = .halted := rfl
@[simp] theorem State.haltRun_pc : s.haltRun.pc = s.pc := rfl
@[simp] theorem State.haltRun_x : s.haltRun.x = s.x := rfl
@[simp] theorem State.haltRun_mem : s.haltRun.mem = s.mem := rfl
@[simp] theorem State.haltRun_imem : s.haltRun.imem = s.imem := rfl
@[simp] theorem State.haltRun_config : s.haltRun.config = s.config := rfl
@[simp] theorem State.haltRun_iFetch : s.haltRun.iFetch = s.iFetch := rfl

@[simp] theorem State.failRun_status (k : FaultKind) : (s.failRun k).status = .faulted k := rfl
@[simp] theorem State.failRun_pc (k : FaultKind) : (s.failRun k).pc = s.pc := rfl
@[simp] theorem State.failRun_x (k : FaultKind) : (s.failRun k).x = s.x := rfl
@[simp] theorem State.failRun_mem (k : FaultKind) : (s.failRun k).mem = s.mem := rfl
@[simp] theorem State.failRun_imem (k : FaultKind) : (s.failRun k).imem = s.imem := rfl
@[simp] theorem State.failRun_config (k : FaultKind) : (s.failRun k).config = s.config := rfl
@[simp] theorem State.failRun_iFetch (k : FaultKind) : (s.failRun k).iFetch = s.iFetch := rfl

end Sys2Proof.Machine
end

