-- ==== Sys2Proof/Laws/Memory.lean ====
section
/-! SUPPORT. Data memory: reading after writing, what a write leaves alone, that every write keeps
the canonical form, and what a read and a fetch depend on. -/

namespace Sys2Proof.Machine

/-- A byte read after a byte written. -/
theorem Memory.byteAt_setByte (m : Memory) (a j : Nat) (b : Byte) :
    (m.setByte a b).byteAt j = if a = j then b else m.byteAt j := by
  unfold Memory.setByte Memory.byteAt
  split
  · rename_i h; subst h; rw [cellAt_dropCell]; split <;> simp_all
  · rw [cellAt_putCell]; split <;> simp

/-- Writing a byte keeps the canonical form. -/
theorem Memory.wf_setByte {m : Memory} (h : m.wf) (a : Nat) (b : Byte) : (m.setByte a b).wf := by
  unfold Memory.setByte
  split
  · exact ⟨rising_dropCell h.1 a, fun c hc => h.2 c (mem_dropCell hc)⟩
  · rename_i hb
    refine ⟨rising_putCell h.1 a b, fun c hc => ?_⟩
    rcases mem_putCell hc with rfl | hc
    · exact hb
    · exact h.2 c hc

/-- Writing a byte inside a bound lists nothing outside it. -/
theorem Memory.bound_setByte {m : Memory} {n : Nat} (h : ∀ c ∈ m, c.1 < n) {a : Nat} (ha : a < n)
    (b : Byte) : ∀ c ∈ m.setByte a b, c.1 < n := by
  unfold Memory.setByte
  intro c hc
  split at hc
  · exact h c (mem_dropCell hc)
  · rcases mem_putCell hc with rfl | hc
    · exact ha
    · exact h c hc

/-- Canonical memories that read alike are equal data. -/
theorem Memory.ext_of_wf {m n : Memory} (hm : m.wf) (hn : n.wf)
    (h : ∀ a, m.byteAt a = n.byteAt a) : m = n := by
  refine rising_ext hm.1 hn.1 fun k => ?_
  have hk := h k
  unfold Memory.byteAt at hk
  rcases hmk : cellAt k m with _ | b <;> rcases hnk : cellAt k n with _ | c <;>
    simp only [hmk, hnk, Option.getD_none, Option.getD_some] at hk
  · rfl
  · exact absurd hk.symm (hn.2 _ (mem_of_cellAt_eq_some hnk))
  · exact absurd hk (hm.2 _ (mem_of_cellAt_eq_some hmk))
  · rw [hk]

variable (s : State)

theorem State.readByte_writeByte (a j : Nat) (b : Byte) :
    (s.writeByte a b).readByte j = if a = j then b else s.readByte j :=
  Memory.byteAt_setByte _ _ _ _

/-- The bytes of one access are pairwise different when the memory is at least as large. -/
theorem State.byteAddr_ne {a : Word} {n i j : Nat} (hn : n ≤ s.config.memSize) (hi : i < n)
    (hj : j < n) (hij : i ≠ j) : s.byteAddr a i ≠ s.byteAddr a j := by
  unfold State.byteAddr
  intro h
  have h' : a.toNat + i ≡ a.toNat + j [MOD s.config.memSize] := h
  have := Nat.ModEq.add_left_cancel' _ h'
  exact hij (Nat.ModEq.eq_of_lt_of_lt this (by omega) (by omega))

/-- A byte outside a store reads as before. -/
theorem State.readByte_memWrite_of_ne {a v : Word} {n j : Nat}
    (h : ∀ i < n, j ≠ s.byteAddr a i) : (s.memWrite a v n).readByte j = s.readByte j := by
  induction n with
  | zero => rfl
  | succ n ih =>
    rw [State.memWrite_succ, State.readByte_writeByte, if_neg fun he => h n (by omega) he.symm]
    exact ih fun i hi => h i (by omega)

/-- A byte of a store reads as the byte stored. -/
theorem State.readByte_memWrite {a v : Word} {n i : Nat} (hn : n ≤ s.config.memSize) (hi : i < n) :
    (s.memWrite a v n).readByte (s.byteAddr a i) = byteOf v i := by
  induction n with
  | zero => omega
  | succ n ih =>
    rw [State.memWrite_succ, State.readByte_writeByte]
    by_cases h : i = n
    · subst h; simp
    · rw [if_neg (s.byteAddr_ne hn (by omega) (by omega) (Ne.symm h))]
      exact ih (by omega) (by omega)

theorem State.memWrite_wf {a v : Word} (h : s.mem.wf) (n : Nat) : (s.memWrite a v n).mem.wf := by
  induction n with
  | zero => exact h
  | succ n ih => exact Memory.wf_setByte ih _ _

theorem State.memWrite_bound {a v : Word} (hs : 0 < s.config.memSize)
    (h : ∀ c ∈ s.mem, c.1 < s.config.memSize) (n : Nat) :
    ∀ c ∈ (s.memWrite a v n).mem, c.1 < s.config.memSize := by
  induction n with
  | zero => exact h
  | succ n ih => exact Memory.bound_setByte ih (Nat.mod_lt _ hs) _

/-! ### memRead -/

theorem State.memRead_succ (a : Word) (n : Nat) :
    s.memRead a (n + 1) = s.memRead a n + (s.readByte (s.byteAddr a n)).toNat * 2 ^ (8 * n) := rfl

@[simp] theorem State.memRead_setPc (t a : Word) (n : Nat) :
    (s.setPc t).memRead a n = s.memRead a n := by
  induction n with
  | zero => rfl
  | succ n ih => simp [State.memRead_succ, ih]

/-- A read depends on memory and the parameters alone. -/
theorem State.memRead_congr {s s' : State} (hm : s.mem = s'.mem) (hc : s.config = s'.config)
    (a : Word) (n : Nat) : s.memRead a n = s'.memRead a n := by
  induction n with
  | zero => rfl
  | succ n ih => simp only [State.memRead, ih, State.readByte, State.byteAddr, hm, hc]

/-- What a write leaves in memory depends on memory and the parameters alone. -/
theorem State.memWrite_mem_congr {s s' : State} (hm : s.mem = s'.mem)
    (hc : s.config = s'.config) (a v : Word) (n : Nat) :
    (s.memWrite a v n).mem = (s'.memWrite a v n).mem := by
  induction n with
  | zero => exact hm
  | succ n ih => simp only [State.memWrite_succ, State.writeByte_mem, ih, State.byteAddr, hc]

/-- A read of the first `k` of the `n` bytes just written. -/
theorem State.memRead_memWrite (a v : Word) {n k : Nat} (hn : n ≤ s.config.memSize) (hk : k ≤ n) :
    (s.memWrite a v n).memRead a k = v.toNat % 2 ^ (8 * k) := by
  induction k with
  | zero => simp [State.memRead]; omega
  | succ k ih =>
    rw [State.memRead, ih (by omega), State.memWrite_byteAddr,
      State.readByte_memWrite s hn (by omega), byteOf_eq]
    simp only [BitVec.toNat_ofNat]
    rw [show 8 * (k + 1) = 8 * k + 8 by ring, Nat.pow_add, Nat.mod_mul]
    ring

/-- Reducing an address modulo 2^32 first makes no difference, since MEM_SIZE divides it (R40). -/
theorem State.byteAddr_add {s : State} (hv : s.config.Valid) (a : Word) (j k : Nat) :
    s.byteAddr (a + BitVec.ofNat 32 j) k = s.byteAddr a (j + k) := by
  unfold State.byteAddr
  have hd : s.config.memSize ∣ 2 ^ 32 := Nat.pow_dvd_pow 2 hv.2.1
  rw [BitVec.toNat_add, BitVec.toNat_ofNat, Nat.add_mod, Nat.mod_mod_of_dvd _ hd]
  have : (a.toNat + j % 2 ^ 32) % s.config.memSize = (a.toNat + j) % s.config.memSize := by
    rw [Nat.add_mod, Nat.mod_mod_of_dvd _ hd, ← Nat.add_mod]
  rw [this, ← Nat.add_mod, add_assoc]

/-! ### iFetch and placeFetchWord -/

/-- The fetch of a loaded word (R45). -/
theorem State.iFetch_ok {s : State} {w : Word} (h1 : s.pc.toNat % 4 = 0)
    (h2 : s.pc.toNat / 4 < s.config.imemWords) (h3 : cellAt (s.pc.toNat / 4) s.imem = some w) :
    s.iFetch = .ok w := by
  unfold State.iFetch; rw [if_neg (by omega), if_neg (by omega), h3]

/-- The fetch depends on pc, the instruction store and the parameters alone. -/
theorem State.iFetch_congr {s s' : State} (hp : s.pc = s'.pc) (hi : s.imem = s'.imem)
    (hc : s.config = s'.config) : s.iFetch = s'.iFetch := by
  unfold State.iFetch; rw [hp, hi, hc]

/-- The word placed for the next fetch is the word it fetches, wherever there is a slot at all. -/
theorem State.iFetch_placeFetchWord (w : Word) (h : 0 < s.config.imemWords) :
    (s.placeFetchWord w).status = .running ∧ (s.placeFetchWord w).iFetch = .ok w := by
  refine ⟨rfl, ?_⟩
  by_cases hp : s.pc.toNat % 4 = 0 ∧ s.pc.toNat / 4 < s.config.imemWords
  · have e : (s.placeFetchWord w).pc = s.pc := if_pos hp
    have ei : (s.placeFetchWord w).imem = putCell (s.pc.toNat / 4) w s.imem := by
      simp only [State.placeFetchWord, if_pos hp]
    exact State.iFetch_ok (by rw [e]; exact hp.1) (by rw [e]; exact hp.2)
      (by rw [e, ei, cellAt_putCell, if_pos rfl])
  · have e : (s.placeFetchWord w).pc = 0#32 := if_neg hp
    have ei : (s.placeFetchWord w).imem = putCell 0 w s.imem := by
      simp only [State.placeFetchWord, if_neg hp]; rfl
    exact State.iFetch_ok (by rw [e]; rfl) (by rw [e]; exact h)
      (by rw [e, ei]; exact (cellAt_putCell _ _ _ _).trans (if_pos rfl))

theorem memSize_pos (c : Config) : 0 < c.memSize := Nat.two_pow_pos _

theorem four_le_memSize {c : Config} (h : c.Valid) : 4 ≤ c.memSize :=
  Nat.pow_le_pow_right (n := 2) (by decide) h.1

end Sys2Proof.Machine
end

