-- ==== Sys2Proof/Laws/Exec.lean ====
section
/-! SUPPORT. What an executed instruction can do, said once (R31: at most one memory range, at most
one register, and pc), and what one step can do. -/

namespace Sys2Proof.Machine

/-- Every executed instruction answers a next state: the state with `n` bytes stored, one register
written and a new pc (0 bytes and register x0 where it stores or writes nothing). -/
theorem exec_shape (i : Instr) (s : State) :
    ∃ n a v rd r t, exec i s = .next (((s.memWrite a v n).writeReg rd r).setPc t) := by
  cases i
  case sb rs1 rs2 imm => exact ⟨1, s.effectiveAddr rs1 imm, s.readReg rs2, 0#5, 0#32, _, rfl⟩
  case sh rs1 rs2 imm => exact ⟨2, s.effectiveAddr rs1 imm, s.readReg rs2, 0#5, 0#32, _, rfl⟩
  case sw rs1 rs2 imm => exact ⟨4, s.effectiveAddr rs1 imm, s.readReg rs2, 0#5, 0#32, _, rfl⟩
  case beq => exact ⟨0, 0#32, 0#32, 0#5, 0#32, _, rfl⟩
  case bne => exact ⟨0, 0#32, 0#32, 0#5, 0#32, _, rfl⟩
  case blt => exact ⟨0, 0#32, 0#32, 0#5, 0#32, _, rfl⟩
  case bge => exact ⟨0, 0#32, 0#32, 0#5, 0#32, _, rfl⟩
  case bltu => exact ⟨0, 0#32, 0#32, 0#5, 0#32, _, rfl⟩
  case bgeu => exact ⟨0, 0#32, 0#32, 0#5, 0#32, _, rfl⟩
  all_goals exact ⟨0, 0#32, 0#32, _, _, _, rfl⟩

/-- One step, from what it answers: the run fails at the fetch, halts, fails in the decoder, or
executes the decoded instruction. -/
theorem step_cases {s t : State} (h : step s = .next t) :
    s.status = .running ∧
    ((∃ k, s.iFetch = .error k ∧ t = s.failRun k) ∨
     (s.iFetch = .ok 0#32 ∧ t = s.haltRun) ∨
     (∃ w k, s.iFetch = .ok w ∧ w ≠ 0#32 ∧ decodeBinary w = .error k ∧ t = s.failRun k) ∨
     (∃ w i, s.iFetch = .ok w ∧ w ≠ 0#32 ∧ decodeBinary w = .ok i ∧ exec i s = .next t)) := by
  unfold step engineStep at h
  split at h
  · rename_i hs
    refine ⟨hs, ?_⟩
    unfold runningStep at h
    split at h
    · rename_i k hk; cases h; exact .inl ⟨k, hk, rfl⟩
    · rename_i w hw
      split at h
      · rename_i h0; subst h0; cases h; exact .inr (.inl ⟨hw, rfl⟩)
      · rename_i h0
        unfold decodeAndExec at h
        split at h
        · rename_i k hk; cases h; exact .inr (.inr (.inl ⟨w, k, hw, h0, hk, rfl⟩))
        · rename_i i hi; exact .inr (.inr (.inr ⟨w, i, hw, h0, hi, h⟩))
  · cases h
  · cases h

/-- The step of a Running machine whose fetch fails. -/
theorem step_of_fetch_error {s : State} {k : FaultKind} (hs : s.status = .running)
    (hf : s.iFetch = .error k) : step s = .next (s.failRun k) := by
  simp [step, engineStep, runningStep, hs, hf]

/-- The step of a Running machine at the halt word. -/
theorem step_of_halt_word {s : State} (hs : s.status = .running) (hf : s.iFetch = .ok 0#32) :
    step s = .next s.haltRun := by
  simp [step, engineStep, runningStep, hs, hf]

/-- The step of a Running machine at a word other than the halt word. -/
theorem step_of_word {s : State} {w : Word} (hs : s.status = .running) (hf : s.iFetch = .ok w)
    (hw : w ≠ 0#32) : step s = decodeAndExec s w := by
  simp [step, engineStep, runningStep, hs, hf, hw]

end Sys2Proof.Machine
end

