-- ==== Sys2Proof/Laws/Operands.lean ====
section
/-! SUPPORT. What each operand form answers, said once: every form goes on to one next state. -/

namespace Sys2Proof.Machine

theorem State.effectiveAddr_eq (s : State) (rs1 : RegIdx) (imm : Int) :
    s.effectiveAddr rs1 imm = u32 ((s.readReg rs1).toNat + imm) :=
  (u32_word_add _ _).symm

/-- A result written and the next instruction selected: what changed and what did not (R110). -/
theorem State.finish_spec (s : State) (rd : RegIdx) (v : Word) :
    (s.finish rd v).pc = s.pc + 4#32 ∧ (rd ≠ 0#5 → (s.finish rd v).readReg rd = v) ∧
    (∀ j, j ≠ rd → (s.finish rd v).readReg j = s.readReg j) ∧
    (s.finish rd v).mem = s.mem ∧ (s.finish rd v).imem = s.imem ∧
    (s.finish rd v).status = s.status ∧ (s.finish rd v).config = s.config := by
  refine ⟨by simp, fun h => by simp [h], fun j hj => ?_, by simp, by simp, by simp, by simp⟩
  simp [State.readReg_writeReg_ne s hj]

theorem aluRegForm_eq (op : AluOp) (rd rs1 rs2 : RegIdx) (s : State) :
    aluRegForm op rd rs1 rs2 s = .next (s.finish rd (alu op (s.readReg rs1) (s.readReg rs2))) :=
  rfl

theorem aluImmForm_eq (op : AluOp) (rd rs1 : RegIdx) (imm : Int) (s : State) :
    aluImmForm op rd rs1 imm s = .next (s.finish rd (alu op (s.readReg rs1) (u32 imm))) := rfl

theorem loadForm_eq (n : Nat) (widen : Nat → Int) (rd rs1 : RegIdx) (imm : Int) (s : State) :
    loadForm n widen rd rs1 imm s =
      .next (s.finish rd (u32 (widen (s.memRead (s.effectiveAddr rs1 imm) n)))) := rfl

/-- A store: its bytes, every other byte, and all that is not memory (R132, R133). -/
theorem storeForm_spec {n : Nat} {rs1 rs2 : RegIdx} {imm : Int} {s t : State}
    (hn : n ≤ s.config.memSize) (h : storeForm n rs1 rs2 imm s = .next t) :
    t.pc = s.pc + 4#32 ∧
    (∀ k < n, t.readByte (s.byteAddr (s.effectiveAddr rs1 imm) k) = byteOf (s.readReg rs2) k) ∧
    (∀ b, (∀ k < n, b ≠ s.byteAddr (s.effectiveAddr rs1 imm) k) → t.readByte b = s.readByte b) ∧
    (∀ j, t.readReg j = s.readReg j) ∧ t.imem = s.imem ∧ t.status = s.status ∧
    t.config = s.config := by
  cases h
  refine ⟨by simp, fun k hk => ?_, fun b hb => ?_, by simp, by simp, by simp, by simp⟩
  · exact State.readByte_memWrite s hn hk
  · exact State.readByte_memWrite_of_ne s hb

/-- A branch changes the pc and nothing else (R152). -/
theorem branchForm_spec (c : BranchCond) (rs1 rs2 : RegIdx) (imm : Int) (s : State) :
    branchForm c rs1 rs2 imm s = .next { s with
      pc := if branchHolds c (s.readReg rs1) (s.readReg rs2) then u32 (s.pc.toNat + imm)
        else u32 (s.pc.toNat + 4) } := by
  rw [u32_word_add, u32_word_add_four]; rfl

end Sys2Proof.Machine
end

