-- ==== Sys2Proof/Laws/PerInstr.lean ====
section
/-! SUPPORT. Per instruction: an encoded instruction carries the selectors of its own row of the
spec table (R81), so that it resolves to its own mnemonic. -/

namespace Sys2Proof.Laws.Selectors

/-- The word of an instruction agrees with its mnemonic's row on every selector. -/
def Statement (i : Instr) : Prop :=
  (specFor i.mnemonic).matchesSelectors (opcodeOf (encode i)) (funct3Of (encode i))
    (funct7Of (encode i)) = true

/-- A row with funct3 and funct7 (formats R and I2). -/
theorem matches_of_both {m : Mnemonic} {w : Word}
    (h : opcodeOf w = (specFor m).opcode ∧ funct3Of w = funct3For m ∧ funct7Of w = funct7For m)
    (h3 : (specFor m).funct3 = some (funct3For m)) (h7 : (specFor m).funct7 = some (funct7For m)) :
    (specFor m).matchesSelectors (opcodeOf w) (funct3Of w) (funct7Of w) = true := by
  simp [InstructionSpec.matchesSelectors, h, h3, h7]

/-- A row with funct3 alone (formats I, S and B). -/
theorem matches_of_funct3 {m : Mnemonic} {w : Word}
    (h : opcodeOf w = (specFor m).opcode ∧ funct3Of w = funct3For m)
    (h3 : (specFor m).funct3 = some (funct3For m)) (h7 : (specFor m).funct7 = none) :
    (specFor m).matchesSelectors (opcodeOf w) (funct3Of w) (funct7Of w) = true := by
  simp [InstructionSpec.matchesSelectors, h, h3, h7]

/-- A row with an opcode alone (formats U and J). -/
theorem matches_of_opcode {m : Mnemonic} {w : Word} (h : opcodeOf w = (specFor m).opcode)
    (h3 : (specFor m).funct3 = none) (h7 : (specFor m).funct7 = none) :
    (specFor m).matchesSelectors (opcodeOf w) (funct3Of w) (funct7Of w) = true := by
  simp [InstructionSpec.matchesSelectors, h, h3, h7]

theorem lui (rd : RegIdx) (imm : ImmU) : Statement (.lui rd imm) :=
  matches_of_opcode (encodeU_fields _ rd imm).1 rfl rfl
theorem auipc (rd : RegIdx) (imm : ImmU) : Statement (.auipc rd imm) :=
  matches_of_opcode (encodeU_fields _ rd imm).1 rfl rfl
theorem jal (rd : RegIdx) (imm : ImmJ) : Statement (.jal rd imm) :=
  matches_of_opcode (encodeJ_fields _ rd imm).1 rfl rfl
theorem jalr (rd : RegIdx) (rs1 : RegIdx) (imm : ImmI) : Statement (.jalr rd rs1 imm) :=
  let h := encodeI_fields _ rd rs1 imm
  matches_of_funct3 ⟨h.1, h.2.1⟩ rfl rfl
theorem beq (rs1 : RegIdx) (rs2 : RegIdx) (imm : ImmB) : Statement (.beq rs1 rs2 imm) :=
  let h := encodeB_fields _ rs1 rs2 imm
  matches_of_funct3 ⟨h.1, h.2.1⟩ rfl rfl
theorem bne (rs1 : RegIdx) (rs2 : RegIdx) (imm : ImmB) : Statement (.bne rs1 rs2 imm) :=
  let h := encodeB_fields _ rs1 rs2 imm
  matches_of_funct3 ⟨h.1, h.2.1⟩ rfl rfl
theorem blt (rs1 : RegIdx) (rs2 : RegIdx) (imm : ImmB) : Statement (.blt rs1 rs2 imm) :=
  let h := encodeB_fields _ rs1 rs2 imm
  matches_of_funct3 ⟨h.1, h.2.1⟩ rfl rfl
theorem bge (rs1 : RegIdx) (rs2 : RegIdx) (imm : ImmB) : Statement (.bge rs1 rs2 imm) :=
  let h := encodeB_fields _ rs1 rs2 imm
  matches_of_funct3 ⟨h.1, h.2.1⟩ rfl rfl
theorem bltu (rs1 : RegIdx) (rs2 : RegIdx) (imm : ImmB) : Statement (.bltu rs1 rs2 imm) :=
  let h := encodeB_fields _ rs1 rs2 imm
  matches_of_funct3 ⟨h.1, h.2.1⟩ rfl rfl
theorem bgeu (rs1 : RegIdx) (rs2 : RegIdx) (imm : ImmB) : Statement (.bgeu rs1 rs2 imm) :=
  let h := encodeB_fields _ rs1 rs2 imm
  matches_of_funct3 ⟨h.1, h.2.1⟩ rfl rfl
theorem lb (rd : RegIdx) (rs1 : RegIdx) (imm : ImmI) : Statement (.lb rd rs1 imm) :=
  let h := encodeI_fields _ rd rs1 imm
  matches_of_funct3 ⟨h.1, h.2.1⟩ rfl rfl
theorem lh (rd : RegIdx) (rs1 : RegIdx) (imm : ImmI) : Statement (.lh rd rs1 imm) :=
  let h := encodeI_fields _ rd rs1 imm
  matches_of_funct3 ⟨h.1, h.2.1⟩ rfl rfl
theorem lw (rd : RegIdx) (rs1 : RegIdx) (imm : ImmI) : Statement (.lw rd rs1 imm) :=
  let h := encodeI_fields _ rd rs1 imm
  matches_of_funct3 ⟨h.1, h.2.1⟩ rfl rfl
theorem lbu (rd : RegIdx) (rs1 : RegIdx) (imm : ImmI) : Statement (.lbu rd rs1 imm) :=
  let h := encodeI_fields _ rd rs1 imm
  matches_of_funct3 ⟨h.1, h.2.1⟩ rfl rfl
theorem lhu (rd : RegIdx) (rs1 : RegIdx) (imm : ImmI) : Statement (.lhu rd rs1 imm) :=
  let h := encodeI_fields _ rd rs1 imm
  matches_of_funct3 ⟨h.1, h.2.1⟩ rfl rfl
theorem sb (rs1 : RegIdx) (rs2 : RegIdx) (imm : ImmI) : Statement (.sb rs1 rs2 imm) :=
  let h := encodeS_fields _ rs1 rs2 imm
  matches_of_funct3 ⟨h.1, h.2.1⟩ rfl rfl
theorem sh (rs1 : RegIdx) (rs2 : RegIdx) (imm : ImmI) : Statement (.sh rs1 rs2 imm) :=
  let h := encodeS_fields _ rs1 rs2 imm
  matches_of_funct3 ⟨h.1, h.2.1⟩ rfl rfl
theorem sw (rs1 : RegIdx) (rs2 : RegIdx) (imm : ImmI) : Statement (.sw rs1 rs2 imm) :=
  let h := encodeS_fields _ rs1 rs2 imm
  matches_of_funct3 ⟨h.1, h.2.1⟩ rfl rfl
theorem addi (rd : RegIdx) (rs1 : RegIdx) (imm : ImmI) : Statement (.addi rd rs1 imm) :=
  let h := encodeI_fields _ rd rs1 imm
  matches_of_funct3 ⟨h.1, h.2.1⟩ rfl rfl
theorem slti (rd : RegIdx) (rs1 : RegIdx) (imm : ImmI) : Statement (.slti rd rs1 imm) :=
  let h := encodeI_fields _ rd rs1 imm
  matches_of_funct3 ⟨h.1, h.2.1⟩ rfl rfl
theorem sltiu (rd : RegIdx) (rs1 : RegIdx) (imm : ImmI) : Statement (.sltiu rd rs1 imm) :=
  let h := encodeI_fields _ rd rs1 imm
  matches_of_funct3 ⟨h.1, h.2.1⟩ rfl rfl
theorem xori (rd : RegIdx) (rs1 : RegIdx) (imm : ImmI) : Statement (.xori rd rs1 imm) :=
  let h := encodeI_fields _ rd rs1 imm
  matches_of_funct3 ⟨h.1, h.2.1⟩ rfl rfl
theorem ori (rd : RegIdx) (rs1 : RegIdx) (imm : ImmI) : Statement (.ori rd rs1 imm) :=
  let h := encodeI_fields _ rd rs1 imm
  matches_of_funct3 ⟨h.1, h.2.1⟩ rfl rfl
theorem andi (rd : RegIdx) (rs1 : RegIdx) (imm : ImmI) : Statement (.andi rd rs1 imm) :=
  let h := encodeI_fields _ rd rs1 imm
  matches_of_funct3 ⟨h.1, h.2.1⟩ rfl rfl
theorem slli (rd : RegIdx) (rs1 : RegIdx) (imm : Shamt) : Statement (.slli rd rs1 imm) :=
  let h := encodeI2_fields _ rd rs1 imm
  matches_of_both ⟨h.1, h.2.1, h.2.2.1⟩ rfl rfl
theorem srli (rd : RegIdx) (rs1 : RegIdx) (imm : Shamt) : Statement (.srli rd rs1 imm) :=
  let h := encodeI2_fields _ rd rs1 imm
  matches_of_both ⟨h.1, h.2.1, h.2.2.1⟩ rfl rfl
theorem srai (rd : RegIdx) (rs1 : RegIdx) (imm : Shamt) : Statement (.srai rd rs1 imm) :=
  let h := encodeI2_fields _ rd rs1 imm
  matches_of_both ⟨h.1, h.2.1, h.2.2.1⟩ rfl rfl
theorem add (rd : RegIdx) (rs1 : RegIdx) (rs2 : RegIdx) : Statement (.add rd rs1 rs2) :=
  let h := encodeR_fields _ rd rs1 rs2
  matches_of_both ⟨h.1, h.2.1, h.2.2.1⟩ rfl rfl
theorem sub (rd : RegIdx) (rs1 : RegIdx) (rs2 : RegIdx) : Statement (.sub rd rs1 rs2) :=
  let h := encodeR_fields _ rd rs1 rs2
  matches_of_both ⟨h.1, h.2.1, h.2.2.1⟩ rfl rfl
theorem sll (rd : RegIdx) (rs1 : RegIdx) (rs2 : RegIdx) : Statement (.sll rd rs1 rs2) :=
  let h := encodeR_fields _ rd rs1 rs2
  matches_of_both ⟨h.1, h.2.1, h.2.2.1⟩ rfl rfl
theorem slt (rd : RegIdx) (rs1 : RegIdx) (rs2 : RegIdx) : Statement (.slt rd rs1 rs2) :=
  let h := encodeR_fields _ rd rs1 rs2
  matches_of_both ⟨h.1, h.2.1, h.2.2.1⟩ rfl rfl
theorem sltu (rd : RegIdx) (rs1 : RegIdx) (rs2 : RegIdx) : Statement (.sltu rd rs1 rs2) :=
  let h := encodeR_fields _ rd rs1 rs2
  matches_of_both ⟨h.1, h.2.1, h.2.2.1⟩ rfl rfl
theorem xor (rd : RegIdx) (rs1 : RegIdx) (rs2 : RegIdx) : Statement (.xor rd rs1 rs2) :=
  let h := encodeR_fields _ rd rs1 rs2
  matches_of_both ⟨h.1, h.2.1, h.2.2.1⟩ rfl rfl
theorem srl (rd : RegIdx) (rs1 : RegIdx) (rs2 : RegIdx) : Statement (.srl rd rs1 rs2) :=
  let h := encodeR_fields _ rd rs1 rs2
  matches_of_both ⟨h.1, h.2.1, h.2.2.1⟩ rfl rfl
theorem sra (rd : RegIdx) (rs1 : RegIdx) (rs2 : RegIdx) : Statement (.sra rd rs1 rs2) :=
  let h := encodeR_fields _ rd rs1 rs2
  matches_of_both ⟨h.1, h.2.1, h.2.2.1⟩ rfl rfl
theorem or (rd : RegIdx) (rs1 : RegIdx) (rs2 : RegIdx) : Statement (.or rd rs1 rs2) :=
  let h := encodeR_fields _ rd rs1 rs2
  matches_of_both ⟨h.1, h.2.1, h.2.2.1⟩ rfl rfl
theorem and (rd : RegIdx) (rs1 : RegIdx) (rs2 : RegIdx) : Statement (.and rd rs1 rs2) :=
  let h := encodeR_fields _ rd rs1 rs2
  matches_of_both ⟨h.1, h.2.1, h.2.2.1⟩ rfl rfl

end Sys2Proof.Laws.Selectors
end

