-- ==== Sys2Proof/Laws/Text.lean ====
section
/-! SUPPORT. The text codec: printed digits read back, and a line of a mnemonic and its operands
splits into that mnemonic and those operands. -/

namespace Sys2Proof

/-! ### Digits -/

theorem hexDigit_digitChar {d : Nat} (upper : Bool) (h : d < 16) :
    hexDigit (digitChar upper d) = some d := by
  cases upper <;> interval_cases d <;> decide

theorem decDigit_digitChar {d : Nat} (upper : Bool) (h : d < 10) :
    decDigit (digitChar upper d) = some d := by
  cases upper <;> interval_cases d <;> decide

section
variable {base : Nat} {upper : Bool} {digit : Char → Option Nat}

theorem digitsFrom_digitsLoop (hb : 2 ≤ base)
    (hd : ∀ d < base, digit (digitChar upper d) = some d) {fuel n : Nat} (acc : Text)
    (h : n < fuel) :
    digitsFrom base digit 0 (digitsLoop base upper fuel n acc) = digitsFrom base digit n acc := by
  induction fuel generalizing n acc with
  | zero => omega
  | succ fuel ih =>
    simp only [digitsLoop]
    split
    · rename_i hn; simp [digitsFrom, hd n hn]
    · have : n / base < n := Nat.div_lt_self (by omega) (by omega)
      rw [ih _ (by omega), digitsFrom, hd _ (Nat.mod_lt _ (by omega))]
      simp only
      rw [Nat.div_add_mod']

theorem mem_digitsLoop (hb : 2 ≤ base) (fuel n : Nat) (acc : Text) :
    ∀ c ∈ digitsLoop base upper fuel n acc, c ∈ acc ∨ ∃ d < base, c = digitChar upper d := by
  induction fuel generalizing n acc with
  | zero => exact fun c hc => .inl hc
  | succ fuel ih =>
    intro c hc
    simp only [digitsLoop] at hc
    split at hc
    · rename_i hn
      rcases List.mem_cons.1 hc with rfl | hc
      · exact .inr ⟨n, hn, rfl⟩
      · exact .inl hc
    · rcases ih _ _ c hc with hc | hc
      · rcases List.mem_cons.1 hc with rfl | hc
        · exact .inr ⟨_, Nat.mod_lt _ (by omega), rfl⟩
        · exact .inl hc
      · exact .inr hc

theorem digitsLoop_ne_nil {fuel n : Nat} {acc : Text} (h : acc ≠ [] ∨ 0 < fuel) :
    digitsLoop base upper fuel n acc ≠ [] := by
  induction fuel generalizing n acc with
  | zero => exact h.resolve_right (by decide)
  | succ fuel ih =>
    simp only [digitsLoop]
    split
    · simp
    · exact ih (.inl (by simp))

theorem digits_ne_nil (n : Nat) : digits base upper n ≠ [] :=
  digitsLoop_ne_nil (.inr (Nat.succ_pos n))

theorem mem_digits (hb : 2 ≤ base) {n : Nat} {c : Char} (hc : c ∈ digits base upper n) :
    ∃ d < base, c = digitChar upper d :=
  (mem_digitsLoop hb _ _ _ c hc).resolve_left (by simp)

/-- The digits of a number read back as the number. -/
theorem number_digits (hb : 2 ≤ base) (hd : ∀ d < base, digit (digitChar upper d) = some d)
    (n : Nat) : number base digit (digits base upper n) = some n := by
  rw [number, if_neg (by simpa using digits_ne_nil n), digits,
    digitsFrom_digitsLoop hb hd _ (Nat.lt_succ_self n)]
  rfl

end

/-- A magnitude printed in decimal reads back (R92, R100). -/
theorem magnitude_decimal (n : Nat) : magnitude (digits 10 false n) = some n := by
  have h1 := number_digits (base := 10) (upper := false) (by decide)
    (fun d h => decDigit_digitChar false h) n
  have h2 : ∀ c ∈ digits 10 false n, ∃ d < 10, c = digitChar false d :=
    fun c hc => mem_digits (by decide) hc
  generalize digits 10 false n = t at *
  unfold magnitude
  split
  · rename_i c d ds
    rw [if_neg]
    · exact h1
    · rintro ⟨-, hd⟩
      obtain ⟨e, he, h⟩ := h2 d (by simp)
      have := decDigit_digitChar false he
      rw [← h] at this
      rcases hd with rfl | rfl <;> simp [decDigit] at this
  · exact h1

/-- A magnitude printed in hexadecimal reads back. -/
theorem magnitude_hexadecimal (n : Nat) :
    magnitude ('0' :: 'x' :: digits 16 false n) = some n := by
  simp [magnitude, number_digits (base := 16) (upper := false) (by decide)
    (fun d h => hexDigit_digitChar false h) n]

/-! ### Characters of operands -/

/-- A character that no part of the codec reads as structure: no white space, comma, comment mark,
colon or parenthesis. -/
def plainChar (c : Char) : Bool :=
  !isSpace c && c != ',' && c != ';' && c != '#' && c != '/' && c != ':' && c != '(' && c != ')'

theorem isSpace_of_plainChar {c : Char} (h : plainChar c = true) : isSpace c = false := by
  simp [plainChar] at h; simp [h]

theorem plainChar_digits {base n : Nat} (hb : 2 ≤ base) (hb' : base ≤ 16) :
    ∀ c ∈ digits base false n, plainChar c = true := by
  intro c hc
  obtain ⟨d, hd, rfl⟩ := mem_digits hb hc
  have h : d < 16 := by omega
  clear hc hd
  interval_cases d <;> decide

theorem plainChar_regText (i : RegIdx) : ∀ c ∈ regText i, plainChar c = true := by
  intro c hc
  rcases List.mem_cons.1 hc with rfl | h
  · decide
  · exact plainChar_digits (by decide) (by decide) c h

theorem plainChar_numberText (v : Int) : ∀ c ∈ numberText v, plainChar c = true := by
  intro c hc
  unfold numberText at hc
  rcases List.mem_append.1 hc with h | h
  · split at h
    · simp at h; subst h; decide
    · simp at h
  · split at h
    · exact plainChar_digits (by decide) (by decide) c h
    · rcases List.mem_cons.1 h with rfl | h
      · decide
      · rcases List.mem_cons.1 h with rfl | h
        · decide
        · exact plainChar_digits (by decide) (by decide) c h

theorem regText_ne_nil (i : RegIdx) : regText i ≠ [] := by simp [regText]

theorem numberText_ne_nil (v : Int) : numberText v ≠ [] := by
  unfold numberText; split <;> split <;> simp [digits_ne_nil]

/-! ### trim -/

/-- A text that neither starts nor ends with white space. -/
def Tight (t : Text) : Prop :=
  (∀ c rest, t = c :: rest → isSpace c = false) ∧
  (∀ c rest, t.reverse = c :: rest → isSpace c = false)

theorem dropWhile_eq_self {p : Char → Bool} {t : Text}
    (h : ∀ c rest, t = c :: rest → p c = false) : t.dropWhile p = t := by
  cases t with
  | nil => rfl
  | cons c rest => simp [List.dropWhile, h c rest rfl]

theorem trim_of_tight {t : Text} (h : Tight t) : trim t = t := by
  unfold trim
  rw [dropWhile_eq_self h.1, dropWhile_eq_self h.2, List.reverse_reverse]

theorem trim_cons_space {c : Char} {t : Text} (h : isSpace c = true) : trim (c :: t) = trim t := by
  simp [trim, List.dropWhile, h]

theorem tight_of_all {t : Text} (h : ∀ c ∈ t, isSpace c = false) : Tight t :=
  ⟨fun c _ e => h c (by rw [e]; simp), fun c _ e => h c (by rw [← List.mem_reverse, e]; simp)⟩

/-! ### Commas and comments -/

theorem splitCommas_eq_cons (t : Text) : ∃ piece more, splitCommas t = piece :: more := by
  cases t with
  | nil => exact ⟨_, _, rfl⟩
  | cons c rest =>
    simp only [splitCommas]
    split
    · exact ⟨_, _, rfl⟩
    · split <;> exact ⟨_, _, rfl⟩

theorem splitCommas_cons {c : Char} {t piece : Text} {more : List Text} (h : c ≠ ',')
    (e : splitCommas t = piece :: more) : splitCommas (c :: t) = (c :: piece) :: more := by
  simp [splitCommas, e, h]

theorem splitCommas_append_comma {p : Text} (t : Text) (h : ∀ c ∈ p, c ≠ ',') :
    splitCommas (p ++ ',' :: t) = p :: splitCommas t := by
  induction p with
  | nil =>
    obtain ⟨piece, more, e⟩ := splitCommas_eq_cons t
    simp [splitCommas, e]
  | cons c p ih =>
    exact splitCommas_cons (h c (by simp)) (ih fun d hd => h d (List.mem_cons_of_mem _ hd))

theorem splitCommas_of_no_comma {p : Text} (h : ∀ c ∈ p, c ≠ ',') : splitCommas p = [p] := by
  induction p with
  | nil => rfl
  | cons c p ih =>
    exact splitCommas_cons (h c (by simp)) (ih fun d hd => h d (List.mem_cons_of_mem _ hd))

theorem pieces_cons_space {c : Char} (t : Text) (h : isSpace c = true) :
    (splitCommas (c :: t)).map trim = (splitCommas t).map trim := by
  obtain ⟨piece, more, e⟩ := splitCommas_eq_cons t
  rw [splitCommas_cons (by rintro rfl; exact absurd h (by decide)) e, e, List.map_cons,
    List.map_cons, trim_cons_space h]

theorem pieces_spaces (n : Nat) (t : Text) :
    (splitCommas (List.replicate n ' ' ++ t)).map trim = (splitCommas t).map trim := by
  induction n with
  | zero => rfl
  | succ n ih => rw [List.replicate_succ, List.cons_append, pieces_cons_space _ (by decide), ih]

/-- An operand as it is printed. -/
def OperandText (t : Text) : Prop := Tight t ∧ (∀ c ∈ t, c ≠ ',') ∧ t ≠ []

theorem operandText_of_plain {t : Text} (hne : t ≠ []) (h : ∀ c ∈ t, plainChar c = true) :
    OperandText t := by
  refine ⟨tight_of_all fun c hc => isSpace_of_plainChar (h c hc), fun c hc e => ?_, hne⟩
  subst e; exact absurd (h _ hc) (by decide)

/-- Operands joined by commas come apart into the same operands (R95, R98). -/
theorem pieces_commaJoin {ops : List Text} (hne : ops ≠ []) (h : ∀ t ∈ ops, OperandText t) :
    (splitCommas (commaJoin ops)).map trim = ops := by
  induction ops with
  | nil => exact absurd rfl hne
  | cons p rest ih =>
    have hp := h p (by simp)
    cases rest with
    | nil => simp [commaJoin, splitCommas_of_no_comma hp.2.1, trim_of_tight hp.1]
    | cons q rest =>
      simp only [commaJoin]
      rw [splitCommas_append_comma _ hp.2.1, List.map_cons, trim_of_tight hp.1,
        pieces_cons_space _ (by decide), ih (by simp) fun t ht => h t (List.mem_cons_of_mem _ ht)]

theorem stripComment_eq_self {t : Text} (h : ∀ c ∈ t, c ≠ ';' ∧ c ≠ '#' ∧ c ≠ '/') :
    stripComment t = t := by
  induction t with
  | nil => rfl
  | cons c rest ih =>
    have := h c (by simp)
    simp [stripComment, this, ih fun d hd => h d (List.mem_cons_of_mem _ hd)]

/-! ### Integers as immediates (R66): which are, and an immediate's own value -/

theorem ImmI.isSome_ofInt? (v : Int) : (ImmI.ofInt? v).isSome = true ↔ ImmI.Valid v := by
  unfold ImmI.ofInt?; split
  · exact iff_of_true rfl ‹_›
  · exact iff_of_false Bool.false_ne_true ‹_›
theorem ImmB.isSome_ofInt? (v : Int) : (ImmB.ofInt? v).isSome = true ↔ ImmB.Valid v := by
  unfold ImmB.ofInt?; split
  · exact iff_of_true rfl ‹_›
  · exact iff_of_false Bool.false_ne_true ‹_›
theorem ImmJ.isSome_ofInt? (v : Int) : (ImmJ.ofInt? v).isSome = true ↔ ImmJ.Valid v := by
  unfold ImmJ.ofInt?; split
  · exact iff_of_true rfl ‹_›
  · exact iff_of_false Bool.false_ne_true ‹_›
theorem ImmU.isSome_ofInt? (v : Int) :
    (ImmU.ofInt? v).isSome = true ↔ 0 ≤ v ∧ ImmU.Valid v.toNat := by
  unfold ImmU.ofInt?; split
  · exact iff_of_true rfl ‹_›
  · exact iff_of_false Bool.false_ne_true ‹_›
theorem Shamt.isSome_ofInt? (v : Int) :
    (Shamt.ofInt? v).isSome = true ↔ 0 ≤ v ∧ Shamt.Valid v.toNat := by
  unfold Shamt.ofInt?; split
  · exact iff_of_true rfl ‹_›
  · exact iff_of_false Bool.false_ne_true ‹_›

@[simp] theorem ImmI.ofInt?_val (imm : ImmI) : ImmI.ofInt? imm.val = some imm := dif_pos imm.2
@[simp] theorem ImmB.ofInt?_val (imm : ImmB) : ImmB.ofInt? imm.val = some imm := dif_pos imm.2
@[simp] theorem ImmJ.ofInt?_val (imm : ImmJ) : ImmJ.ofInt? imm.val = some imm := dif_pos imm.2
@[simp] theorem ImmU.ofInt?_val (imm : ImmU) : ImmU.ofInt? (imm.val : Int) = some imm :=
  dif_pos ⟨Int.natCast_nonneg _, imm.2⟩
@[simp] theorem Shamt.ofInt?_val (imm : Shamt) : Shamt.ofInt? (imm.val : Int) = some imm :=
  dif_pos ⟨Int.natCast_nonneg _, imm.2⟩

theorem ImmI.val_of_ofInt? {v : Int} {imm : ImmI} (h : ImmI.ofInt? v = some imm) :
    imm.val = v := by
  unfold ImmI.ofInt? at h; split at h <;> cases h; rfl
theorem ImmB.val_of_ofInt? {v : Int} {imm : ImmB} (h : ImmB.ofInt? v = some imm) :
    imm.val = v := by
  unfold ImmB.ofInt? at h; split at h <;> cases h; rfl
theorem ImmJ.val_of_ofInt? {v : Int} {imm : ImmJ} (h : ImmJ.ofInt? v = some imm) :
    imm.val = v := by
  unfold ImmJ.ofInt? at h; split at h <;> cases h; rfl
theorem ImmU.val_of_ofInt? {v : Int} {imm : ImmU} (h : ImmU.ofInt? v = some imm) :
    (imm.val : Int) = v := by
  unfold ImmU.ofInt? at h; split at h
  · rename_i hv; cases h; exact Int.toNat_of_nonneg hv.1
  · cases h
theorem Shamt.val_of_ofInt? {v : Int} {imm : Shamt} (h : Shamt.ofInt? v = some imm) :
    (imm.val : Int) = v := by
  unfold Shamt.ofInt? at h; split at h
  · rename_i hv; cases h; exact Int.toNat_of_nonneg hv.1
  · cases h

/-! ### Mnemonics -/

/-- A mnemonic's spelling: plain characters, shorter than the column, and it names itself. -/
theorem Mnemonic.name_spec (m : Mnemonic) :
    (∀ c ∈ m.name, plainChar c = true) ∧ m.name ≠ [] ∧ m.name.length < mnemonicColumn ∧
    specForText m.name = .ok m := by
  refine ⟨?_, ?_, ?_, ?_⟩
  · rw [← List.all_eq_true]; cases m <;> decide
  · cases m <;> decide
  · cases m <;> decide
  · cases m <;> rfl

/-! ### Memory form -/

theorem span_paren {n : Text} (rest : Text) (h : ∀ c ∈ n, c ≠ '(') :
    (n ++ '(' :: rest).takeWhile (fun c => decide (c ≠ '(')) = n ∧
    (n ++ '(' :: rest).dropWhile (fun c => decide (c ≠ '(')) = '(' :: rest := by
  induction n with
  | nil => constructor <;> simp
  | cons c n ih =>
    obtain ⟨ih1, ih2⟩ := ih fun d hd => h d (List.mem_cons_of_mem _ hd)
    have hc : decide (c ≠ '(') = true := decide_eq_true (h c (by simp))
    constructor
    · simp only [List.cons_append, List.takeWhile, hc]; exact congrArg _ ih1
    · simp only [List.cons_append, List.dropWhile, hc]; exact ih2

/-- The memory form comes apart into its immediate and its register (R95, R101). -/
theorem splitMemoryForm_memText (v : Int) (r : RegIdx) :
    splitMemoryForm (memText v r) = some (numberText v, regText r) := by
  have hn : ∀ c ∈ numberText v, c ≠ '(' := by
    rintro c hc rfl; exact absurd (plainChar_numberText v _ hc) (by decide)
  have hr : (regText r).all (fun c => decide (c ≠ '(' ∧ c ≠ ')')) = true := by
    rw [List.all_eq_true]
    intro c hc
    have := plainChar_regText r c hc
    rw [decide_eq_true_eq]
    constructor <;> (rintro rfl; exact absurd this (by decide))
  have e : memText v r = numberText v ++ '(' :: (regText r ++ [')']) := by simp [memText]
  obtain ⟨t1, t2⟩ := span_paren (regText r ++ [')']) hn
  unfold splitMemoryForm
  rw [e, t1, t2, List.drop_one, List.tail_cons]
  split
  · rename_i h; exact absurd h (by simp)
  · simp only [List.getLast?_append, List.dropLast_concat]
    rw [if_pos ⟨by simp, hr⟩]

end Sys2Proof
end

