-- ==== Sys2Proof/Tests/Slice0.lean ====
section
/-! SUPPORT. Tests. Expected values are those of spec/95_test_vectors.md (its section is named
before each group) or of the rule's own worked example. Then, for every statement with hypotheses,
a witness that meets them. -/

namespace Sys2Proof.Tests

open Sys2Proof.Machine

/-! ### Small states -/

/-- The test settings of spec/95_test_vectors.md: 256 bytes, 64 slots, the default JALR order. -/
def config : Config := { memSizeLog2 := 8, imemWords := 64, jalrReadsRs1AfterLink := true }

/-- Running at `pc`, the listed registers and bytes set, every other register 7. -/
def state (pc : Word) (regs : List (RegIdx × Word)) (bytes : List Host.Cell := []) : State :=
  let s : State :=
    { status := .running, pc := pc, x := Vector.replicate 31 7, mem := [], imem := [],
      config := config }
  let s := regs.foldl (fun s r => s.writeReg r.1 r.2) s
  bytes.foldl (fun s c => s.writeByte c.1 c.2) s

/-- The state an outcome goes to. -/
def nextOf (o : Host.Outcome State Fault Refusal) : Option State :=
  match o with
  | .next t => some t
  | .fault _ => none
  | .refused _ => none

/-- The state after the step that runs the word `w`. -/
def run (s : State) (w : Nat) : Option State := nextOf (step (s.withFetchWord 32 w))

/-- Register `rd` and pc after the step that runs `w`. -/
def regPc (s : State) (w : Nat) (rd : RegIdx) : Option (Word × Word) :=
  (run s w).map fun t => (t.readReg rd, t.pc)

/-- The data memory listed after the step that runs `w`. -/
def memPc (s : State) (w : Nat) : Option (List (Nat × Byte) × Word) :=
  (run s w).map fun t => (t.mem, t.pc)

/-! ### Well-formedness: an ill-formed record for each check, which the check refuses (R66) -/

/-- The check and the constructor on a record with immediate `v`. -/
def accepts (m : Mnemonic) (v : Int) : Bool × Bool :=
  (({ imm := v } : Fields).wellFormed (specFor m).format, (instrOf m { imm := v }).isSome)

theorem test_wf_immI_high : accepts .addi 2048 = (false, false) := by decide
theorem test_wf_immI_low : accepts .lw (-2049) = (false, false) := by decide
theorem test_wf_immS_high : accepts .sw 2048 = (false, false) := by decide
theorem test_wf_immB_high : accepts .beq 4096 = (false, false) := by decide
theorem test_wf_immB_low : accepts .bne (-4098) = (false, false) := by decide
theorem test_wf_immB_odd : accepts .blt 7 = (false, false) := by decide
theorem test_wf_immJ_high : accepts .jal 1048576 = (false, false) := by decide
theorem test_wf_immJ_low : accepts .jal (-1048578) = (false, false) := by decide
theorem test_wf_immJ_odd : accepts .jal 3 = (false, false) := by decide
theorem test_wf_immU_high : accepts .lui 0x100000000 = (false, false) := by decide
theorem test_wf_immU_low_bits : accepts .auipc 0x1001 = (false, false) := by decide
theorem test_wf_immU_negative : accepts .lui (-4096) = (false, false) := by decide
theorem test_wf_shamt_high : accepts .slli 32 = (false, false) := by decide
theorem test_wf_shamt_negative : accepts .srai (-1) = (false, false) := by decide
theorem test_wf_bounds :
    [accepts .addi (-2048), accepts .bge 4094, accepts .jal (-1048576), accepts .lui 0xFFFFF000,
      accepts .srai 31, accepts .add 5] = List.replicate 6 (true, true) := by decide

/-! ### Decoding: every constructor, its word from section 2.3 (R75, R59 to R65) -/

theorem test_decode_lui : decodeBinary 0xABCDE0B7 = .ok (.lui 1 ⟨0xABCDE000, by decide⟩) := by decide
theorem test_decode_auipc : decodeBinary 0xABCDE097 = .ok (.auipc 1 ⟨0xABCDE000, by decide⟩) := by decide
theorem test_decode_jal : decodeBinary 0xFF9FF0EF = .ok (.jal 1 ⟨-8, by decide⟩) := by decide
theorem test_decode_jalr : decodeBinary 0xFFD100E7 = .ok (.jalr 1 2 ⟨-3, by decide⟩) := by decide
theorem test_decode_beq : decodeBinary 0xFE310EE3 = .ok (.beq 2 3 ⟨-4, by decide⟩) := by decide
theorem test_decode_bne : decodeBinary 0xFE311EE3 = .ok (.bne 2 3 ⟨-4, by decide⟩) := by decide
theorem test_decode_blt : decodeBinary 0xFE314EE3 = .ok (.blt 2 3 ⟨-4, by decide⟩) := by decide
theorem test_decode_bge : decodeBinary 0xFE315EE3 = .ok (.bge 2 3 ⟨-4, by decide⟩) := by decide
theorem test_decode_bltu : decodeBinary 0xFE316EE3 = .ok (.bltu 2 3 ⟨-4, by decide⟩) := by decide
theorem test_decode_bgeu : decodeBinary 0xFE317EE3 = .ok (.bgeu 2 3 ⟨-4, by decide⟩) := by decide
theorem test_decode_lb : decodeBinary 0xFFD10083 = .ok (.lb 1 2 ⟨-3, by decide⟩) := by decide
theorem test_decode_lh : decodeBinary 0xFFD11083 = .ok (.lh 1 2 ⟨-3, by decide⟩) := by decide
theorem test_decode_lw : decodeBinary 0xFFD12083 = .ok (.lw 1 2 ⟨-3, by decide⟩) := by decide
theorem test_decode_lbu : decodeBinary 0xFFD14083 = .ok (.lbu 1 2 ⟨-3, by decide⟩) := by decide
theorem test_decode_lhu : decodeBinary 0xFFD15083 = .ok (.lhu 1 2 ⟨-3, by decide⟩) := by decide
theorem test_decode_sb : decodeBinary 0xFE310EA3 = .ok (.sb 2 3 ⟨-3, by decide⟩) := by decide
theorem test_decode_sh : decodeBinary 0xFE311EA3 = .ok (.sh 2 3 ⟨-3, by decide⟩) := by decide
theorem test_decode_sw : decodeBinary 0xFE312EA3 = .ok (.sw 2 3 ⟨-3, by decide⟩) := by decide
theorem test_decode_addi : decodeBinary 0xFFD10093 = .ok (.addi 1 2 ⟨-3, by decide⟩) := by decide
theorem test_decode_slti : decodeBinary 0xFFD12093 = .ok (.slti 1 2 ⟨-3, by decide⟩) := by decide
theorem test_decode_sltiu : decodeBinary 0xFFD13093 = .ok (.sltiu 1 2 ⟨-3, by decide⟩) := by decide
theorem test_decode_xori : decodeBinary 0xFFD14093 = .ok (.xori 1 2 ⟨-3, by decide⟩) := by decide
theorem test_decode_ori : decodeBinary 0xFFD16093 = .ok (.ori 1 2 ⟨-3, by decide⟩) := by decide
theorem test_decode_andi : decodeBinary 0xFFD17093 = .ok (.andi 1 2 ⟨-3, by decide⟩) := by decide
theorem test_decode_slli : decodeBinary 0x00711093 = .ok (.slli 1 2 ⟨7, by decide⟩) := by decide
theorem test_decode_srli : decodeBinary 0x00715093 = .ok (.srli 1 2 ⟨7, by decide⟩) := by decide
theorem test_decode_srai : decodeBinary 0x40715093 = .ok (.srai 1 2 ⟨7, by decide⟩) := by decide
theorem test_decode_add : decodeBinary 0x003100B3 = .ok (.add 1 2 3) := by decide
theorem test_decode_sub : decodeBinary 0x403100B3 = .ok (.sub 1 2 3) := by decide
theorem test_decode_sll : decodeBinary 0x003110B3 = .ok (.sll 1 2 3) := by decide
theorem test_decode_slt : decodeBinary 0x003120B3 = .ok (.slt 1 2 3) := by decide
theorem test_decode_sltu : decodeBinary 0x003130B3 = .ok (.sltu 1 2 3) := by decide
theorem test_decode_xor : decodeBinary 0x003140B3 = .ok (.xor 1 2 3) := by decide
theorem test_decode_srl : decodeBinary 0x003150B3 = .ok (.srl 1 2 3) := by decide
theorem test_decode_sra : decodeBinary 0x403150B3 = .ok (.sra 1 2 3) := by decide
theorem test_decode_or : decodeBinary 0x003160B3 = .ok (.or 1 2 3) := by decide
theorem test_decode_and : decodeBinary 0x003170B3 = .ok (.and 1 2 3) := by decide

/-! ### Decoding: corners and words that are no instruction (section 2.2, R79, R85) -/

theorem test_decode_illegal :
    [0x00000000, 0xFFFFFFFF, 0x00000001, 0x0000000F, 0x00000073, 0x00100073, 0x02208033, 0x42009033,
      0x40001013, 0x02005013, 0x00003067, 0x00003003, 0x00006003, 0x00003023, 0x00002063].map
        (fun w => decodeTableWord 32 w) = List.replicate 15 none := by decide
theorem test_decode_corners_imm :
    decodeBinary 0xFFF00093 = .ok (.addi 1 0 ⟨-1, by decide⟩) ∧
    decodeBinary 0xFE00AFA3 = .ok (.sw 1 0 ⟨-1, by decide⟩) ∧
    decodeBinary 0x80000063 = .ok (.beq 0 0 ⟨-4096, by decide⟩) ∧
    decodeBinary 0xFE000FE3 = .ok (.beq 0 0 ⟨-2, by decide⟩) ∧
    decodeBinary 0x7E000FE3 = .ok (.beq 0 0 ⟨4094, by decide⟩) := by decide
theorem test_decode_corners_wide :
    decodeBinary 0x800000EF = .ok (.jal 1 ⟨-1048576, by decide⟩) ∧
    decodeBinary 0x7FFFF0EF = .ok (.jal 1 ⟨1048574, by decide⟩) ∧
    decodeBinary 0x41F0D193 = .ok (.srai 3 1 ⟨31, by decide⟩) ∧
    decodeBinary 0xFFFFF2B7 = .ok (.lui 5 ⟨0xFFFFF000, by decide⟩) := by decide
/-- S5: BEQ x0, x0, 8 keeps its immediate through the encoder. -/
theorem test_encode_beq : encode (.beq 0 0 ⟨8, by decide⟩) = 0x00000463 := by decide

/-! ### ALU (section 3): the register written and the pc after one step at pc 0 -/

theorem test_add_overflow :
    regPc (state 0 [(1, 0x7FFFFFFF), (2, 1)]) 0x002081B3 3 = some (0x80000000, 4) := by decide
theorem test_add_x0 :
    regPc (state 0 [(1, 5), (2, 6)]) 0x00208033 0 = some (0, 4) := by decide
theorem test_sub_borrow :
    regPc (state 0 [(1, 0), (2, 1)]) 0x402081B3 3 = some (0xFFFFFFFF, 4) := by decide
theorem test_sub_overflow :
    regPc (state 0 [(1, 0x80000000), (2, 1)]) 0x402081B3 3 = some (0x7FFFFFFF, 4) := by decide
theorem test_and :
    regPc (state 0 [(1, 0xF0F0F0F0), (2, 0xFF00FF00)]) 0x0020F1B3 3 = some (0xF000F000, 4) := by decide
theorem test_or :
    regPc (state 0 [(1, 0xF0F0F0F0), (2, 0x0F0F0F0F)]) 0x0020E1B3 3 = some (0xFFFFFFFF, 4) := by decide
theorem test_xor :
    regPc (state 0 [(1, 0xFFFFFFFF), (2, 0x12345678)]) 0x0020C1B3 3 = some (0xEDCBA987, 4) := by decide
theorem test_slt_negative :
    regPc (state 0 [(1, 0xFFFFFFFF), (2, 1)]) 0x0020A1B3 3 = some (1, 4) := by decide
theorem test_slt_equal :
    regPc (state 0 [(1, 5), (2, 5)]) 0x0020A1B3 3 = some (0, 4) := by decide
theorem test_sltu_greatest :
    regPc (state 0 [(1, 0xFFFFFFFF), (2, 1)]) 0x0020B1B3 3 = some (0, 4) := by decide
theorem test_sltu_x0 :
    regPc (state 0 [(2, 1)]) 0x002031B3 3 = some (1, 4) := by decide
theorem test_sll_31 :
    regPc (state 0 [(1, 1), (2, 0x1F)]) 0x002091B3 3 = some (0x80000000, 4) := by decide
theorem test_sll_masked :
    regPc (state 0 [(1, 3), (2, 0xFFFFFFE1)]) 0x002091B3 3 = some (6, 4) := by decide
theorem test_srl_31 :
    regPc (state 0 [(1, 0x80000000), (2, 0x1F)]) 0x0020D1B3 3 = some (1, 4) := by decide
theorem test_srl_masked :
    regPc (state 0 [(1, 0x80000000), (2, 0x24)]) 0x0020D1B3 3 = some (0x08000000, 4) := by decide
theorem test_sra_31 :
    regPc (state 0 [(1, 0x80000000), (2, 0x1F)]) 0x4020D1B3 3 = some (0xFFFFFFFF, 4) := by decide
theorem test_sra_positive :
    regPc (state 0 [(1, 0x40000000), (2, 4)]) 0x4020D1B3 3 = some (0x04000000, 4) := by decide
theorem test_addi_minus_one :
    regPc (state 0 [(1, 0)]) 0xFFF08193 3 = some (0xFFFFFFFF, 4) := by decide
theorem test_slti_minus_one :
    regPc (state 0 [(1, 0xFFFFFFFE)]) 0xFFF0A193 3 = some (1, 4) := by decide
theorem test_slti_least :
    regPc (state 0 [(1, 0x80000000)]) 0x0000A193 3 = some (1, 4) := by decide
theorem test_sltiu_minus_one :
    regPc (state 0 [(1, 5)]) 0xFFF0B193 3 = some (1, 4) := by decide
theorem test_sltiu_greatest :
    regPc (state 0 [(1, 0xFFFFFFFF)]) 0xFFF0B193 3 = some (0, 4) := by decide
theorem test_xori :
    regPc (state 0 [(1, 0x12345678)]) 0xFFF0C193 3 = some (0xEDCBA987, 4) := by decide
theorem test_ori :
    regPc (state 0 [(1, 1)]) 0x8000E193 3 = some (0xFFFFF801, 4) := by decide
theorem test_andi_2047 :
    regPc (state 0 [(1, 0xFFFFFFFF)]) 0x7FF0F193 3 = some (0x7FF, 4) := by decide
theorem test_andi_minus_one :
    regPc (state 0 [(1, 0x89ABCDEF)]) 0xFFF0F193 3 = some (0x89ABCDEF, 4) := by decide
theorem test_slli_31 :
    regPc (state 0 [(1, 3)]) 0x01F09193 3 = some (0x80000000, 4) := by decide
theorem test_slli_0 :
    regPc (state 0 [(1, 0xDEADBEEF)]) 0x00009193 3 = some (0xDEADBEEF, 4) := by decide
theorem test_srli :
    regPc (state 0 [(1, 0xF0000000)]) 0x0040D193 3 = some (0x0F000000, 4) := by decide
theorem test_srai_negative :
    regPc (state 0 [(1, 0xF0000000)]) 0x4040D193 3 = some (0xFF000000, 4) := by decide
theorem test_srai_positive :
    regPc (state 0 [(1, 0x7FFFFFFF)]) 0x41F0D193 3 = some (0, 4) := by decide
/-- ADDI x0, x0, 0 changes the pc alone (R87). -/
theorem test_nop :
    run (state 0 []) 0x00000013
      = some (((state 0 []).withFetchWord 32 0x00000013).setPc 4) := by decide

/-! ### Loads (section 4.1): bytes 0x10 to 0x14 hold 78 56 34 82 80 -/

def loadBytes : List Host.Cell := [(0x10, 0x78), (0x11, 0x56), (0x12, 0x34), (0x13, 0x82), (0x14, 0x80)]

theorem test_lb_negative :
    regPc (state 0 [(1, 0x10)] loadBytes) 0x00408283 5 = some (0xFFFFFF80, 4) := by decide
theorem test_lb_positive :
    regPc (state 0 [(1, 0x10)] loadBytes) 0x00008283 5 = some (0x78, 4) := by decide
theorem test_lbu :
    regPc (state 0 [(1, 0x10)] loadBytes) 0x0040C283 5 = some (0x80, 4) := by decide
theorem test_lbu_minus_one :
    regPc (state 0 [(1, 0x15)] loadBytes) 0xFFF0C283 5 = some (0x80, 4) := by decide
theorem test_lh :
    regPc (state 0 [(1, 0x10)] loadBytes) 0x00209283 5 = some (0xFFFF8234, 4) := by decide
theorem test_lh_misaligned :
    regPc (state 0 [(1, 0x10)] loadBytes) 0x00309283 5 = some (0xFFFF8082, 4) := by decide
theorem test_lhu :
    regPc (state 0 [(1, 0x10)] loadBytes) 0x0020D283 5 = some (0x8234, 4) := by decide
theorem test_lw_misaligned :
    regPc (state 0 [(1, 0x10)] loadBytes) 0x0010A283 5 = some (0x80823456, 4) := by decide
/-- LW x5, -1(x0): the four bytes wrap one by one (D7). -/
theorem test_lw_wraps :
    regPc (state 0 [] [(0xFF, 0x11), (0, 0x22), (1, 0x33), (2, 0x44)]) 0xFFF02283 5
      = some (0x44332211, 4) := by decide

/-! ### Stores (section 4.2): every byte the store lists -/

theorem test_sb :
    memPc (state 0 [(1, 0x10), (2, 0x12345678)]) 0x002080A3 = some ([(0x11, 0x78)], 4) := by decide
theorem test_sh :
    memPc (state 0 [(1, 0x10), (2, 0x12345678)]) 0xFE209F23 = some ([(0x0E, 0x78), (0x0F, 0x56)], 4) := by decide
theorem test_sh_wraps :
    memPc (state 0 [(1, 0xFF), (2, 0xBEEF)]) 0x00209023 = some ([(0x00, 0xBE), (0xFF, 0xEF)], 4) := by decide
theorem test_sw_misaligned :
    memPc (state 0 [(1, 0x10), (2, 0xAABBCCDD)]) 0x0020A1A3 = some ([(0x13, 0xDD), (0x14, 0xCC), (0x15, 0xBB), (0x16, 0xAA)], 4) := by decide
/-- SW x0: four zero bytes unlist what was there. -/
theorem test_sw_zero :
    memPc (state 0 [(1, 0x10)] loadBytes) 0x0000A023 = some ([(0x14, 0x80)], 4) := by decide

/-! ### Upper immediates (section 5) -/

theorem test_lui :
    regPc (state 0 []) 0x123452B7 5 = some (0x12345000, 4) := by decide
theorem test_lui_zero :
    regPc (state 0 []) 0x000002B7 5 = some (0, 4) := by decide
theorem test_auipc_wraps :
    regPc (state 8 []) 0xFFFFF297 5 = some (0xFFFFF008, 0xC) := by decide
theorem test_auipc :
    regPc (state 0x10 []) 0x80000297 5 = some (0x80000010, 0x14) := by decide

/-! ### Jumps and branches (section 6) -/

theorem test_jal :
    regPc (state 0 []) 0x008000EF 1 = some (4, 8) := by decide
theorem test_jal_wraps :
    regPc (state 0 []) 0xFFDFF06F 0 = some (0, 0xFFFFFFFC) := by decide
/-- JALR x5, 0(x5) under both orders of JALR_READS_RS1_AFTER_LINK. -/
theorem test_jalr_both_orders :
    regPc (state 0x20 [(5, 0x100)]) 0x000282E7 5 = some (0x24, 0x24) ∧
    regPc { state 0x20 [(5, 0x100)] with config := { config with jalrReadsRs1AfterLink := false } }
      0x000282E7 5 = some (0x24, 0x100) := by decide
theorem test_jalr_keeps_bit_0 :
    regPc (state 0 [(2, 0x10)]) 0x001100E7 1 = some (4, 0x11) := by decide
theorem test_beq_taken :
    (run (state 0x10 [(1, 7), (2, 7)]) 0x00208463).map (·.pc) = some 0x18 := by decide
theorem test_beq_not_taken :
    (run (state 0x10 [(1, 7), (2, 8)]) 0x00208463).map (·.pc) = some 0x14 := by decide
theorem test_bne_taken :
    (run (state 0x10 [(1, 1), (2, 2)]) 0xFE209EE3).map (·.pc) = some 0xC := by decide
theorem test_bne_not_taken :
    (run (state 0x10 [(1, 2), (2, 2)]) 0xFE209EE3).map (·.pc) = some 0x14 := by decide
theorem test_blt_taken :
    (run (state 0 [(1, 0xFFFFFFFF), (2, 0)]) 0x0020C663).map (·.pc) = some 0xC := by decide
theorem test_blt_not_taken :
    (run (state 0 [(1, 0), (2, 0xFFFFFFFF)]) 0x0020C663).map (·.pc) = some 4 := by decide
theorem test_bge_equal :
    (run (state 0 [(1, 5), (2, 5)]) 0x0020D863).map (·.pc) = some 0x10 := by decide
theorem test_bge_not_taken :
    (run (state 0 [(1, 0x80000000), (2, 0)]) 0x0020D863).map (·.pc) = some 4 := by decide
theorem test_bltu_not_taken :
    (run (state 0 [(1, 0xFFFFFFFF), (2, 1)]) 0x0020E663).map (·.pc) = some 4 := by decide
theorem test_bltu_taken :
    (run (state 0 [(1, 1), (2, 0xFFFFFFFF)]) 0x0020E663).map (·.pc) = some 0xC := by decide
theorem test_bgeu_taken :
    (run (state 0 [(1, 0xFFFFFFFF), (2, 1)]) 0x0020F863).map (·.pc) = some 0x10 := by decide
theorem test_bgeu_not_taken :
    (run (state 0 [(1, 0), (2, 1)]) 0x0020F863).map (·.pc) = some 4 := by decide

/-! ### The step, its failures and their order (section 7): IMEM_WORDS = 4 -/

def small (pc : Word) (words : List Word) : Option State :=
  State.loadProgram { state pc [] with config := { config with imemWords := 4 } } words

/-- The status and pc after one step. -/
def endOf (pc : Word) (words : List Word) : Option (Status × Word) :=
  (small pc words).bind fun s => (nextOf (step s)).map fun t => (t.status, t.pc)

theorem test_fetch_misaligned :
    endOf 0x2 [0x13] = some (.faulted .fetchMisaligned, 0x2) := by decide
theorem test_fetch_out_of_range :
    endOf 0x10 [0x13] = some (.faulted .fetchOutOfRange, 0x10) := by decide
theorem test_fetch_top :
    endOf 0xFFFFFFFC [0x13] = some (.faulted .fetchOutOfRange, 0xFFFFFFFC) := by decide
theorem test_fetch_unloaded :
    endOf 0x4 [0x13] = some (.faulted .fetchUnloaded, 0x4) := by decide
theorem test_halt : endOf 0 [0] = some (.halted, 0) := by decide
theorem test_unknown_encoding :
    endOf 0 [0xFFFFFFFF] = some (.faulted .unknownEncoding, 0) := by decide
theorem test_fence_is_unknown :
    endOf 0 [0x0F] = some (.faulted .unknownEncoding, 0) := by decide
theorem test_misaligned_before_out_of_range :
    endOf 0x12 [0x13] = some (.faulted .fetchMisaligned, 0x12) := by decide
theorem test_load_too_large :
    small 0 [0x13, 0x13, 0x13, 0x13, 0x13] = none := by decide
theorem test_no_step_when_stopped :
    nextOf (step { state 0 [] with status := .halted }) = none ∧
    nextOf (step { state 0 [] with status := .faulted .fetchUnloaded }) = none := by decide
/-- S6: a write to x0 is discarded. -/
theorem test_x0 : (State.reset.writeReg 0 0xDEADBEEF).readReg 0 = 0 := by decide
/-- From reset, with nothing loaded, the first step fails at the fetch (R34, R45). -/
theorem test_reset_step :
    nextOf (step State.reset) = some { State.reset with status := .faulted .fetchUnloaded } := by
  decide
/-- A word placed for the next fetch is the first instruction that runs after reset: JAL x1, 8. -/
theorem test_reset_with_fetch_word :
    regPc State.reset 0x008000EF 1 = some (4, 8) := by decide

/-! ### The text side (sections 1 and 8) -/

theorem test_parse_register :
    ["x0", "X31", " x5 ", "x05", "x32", "zero", "ra", "sp", "gp", "tp", "fp", "s0", "a7", "s11",
      "t6", "r1", "pc", ""].map (fun t => (parseRegister t.toList).toOption)
      = [some 0, some 31, some 5, some 5, none, some 0, some 1, some 2, some 3, some 4, some 8,
          some 8, some 17, some 27, some 31, none, none, none] := by decide
theorem test_parse_immediate_signed :
    parseImmediate "2047".toList 12 0 true = .ok 2047 ∧
    parseImmediate "-2048".toList 12 0 true = .ok (-2048) ∧
    parseImmediate "-2049".toList 12 0 true = .error .immediateOutOfRange ∧
    parseImmediate "0xFFF".toList 12 0 true = .error .immediateOutOfRange ∧
    parseImmediate "-0x800".toList 12 0 true = .ok (-2048) ∧
    parseImmediate "+5".toList 12 0 true = .ok 5 ∧
    parseImmediate "0X1f".toList 12 0 true = .ok 31 := by decide
theorem test_parse_immediate_unsigned :
    parseImmediate "0x3".toList 5 0 false = .ok 3 ∧
    parseImmediate "32".toList 5 0 false = .error .immediateOutOfRange ∧
    parseImmediate "-1".toList 5 0 false = .error .immediateOutOfRange ∧
    parseImmediate "0xFFFFF".toList 20 0 false = .ok 1048575 := by decide
theorem test_parse_immediate_alignment :
    parseImmediate "7".toList 13 1 true = .error .immediateMisaligned ∧
    parseImmediate "-3".toList 13 1 true = .error .immediateMisaligned ∧
    parseImmediate "4095".toList 13 1 true = .error .immediateMisaligned ∧
    parseImmediate "4096".toList 13 1 true = .error .immediateOutOfRange ∧
    parseImmediate "4094".toList 13 1 true = .ok 4094 := by decide
theorem test_parse_immediate_malformed :
    ["0b101", "1_000", "", "0x"].map (fun t => parseImmediate t.toList 12 0 true)
      = List.replicate 4 (.error .malformedOperands) := by decide
theorem test_decode_text :
    decodeText "ADD X1,X2,X3".toList = .ok (.add 1 2 3) ∧
    decodeText "add x1,x2,x3 // c".toList = .ok (.add 1 2 3) ∧
    decodeText "lw x5, 4 ( sp )".toList = .ok (.lw 5 2 ⟨4, by decide⟩) ∧
    decodeText "sw a0, -8(sp)".toList = .ok (.sw 2 10 ⟨-8, by decide⟩) ∧
    decodeText "srai t0, t1, 0x1f".toList = .ok (.srai 5 6 ⟨31, by decide⟩) ∧
    decodeText "lui x1, 0xfffff".toList = .ok (.lui 1 ⟨0xFFFFF000, by decide⟩) ∧
    decodeText "beq x0, x0, 8".toList = .ok (.beq 0 0 ⟨8, by decide⟩) := by decide
theorem test_decode_text_fails :
    decodeText "add x1, x2".toList = .error .malformedOperands ∧
    decodeText "add x1, x2, x3, x4".toList = .error .malformedOperands ∧
    decodeText "add x1, x2, x40".toList = .error .unknownRegister ∧
    decodeText "addx x1,x2,x3".toList = .error .unknownMnemonic ∧
    decodeText "".toList = .error .unknownMnemonic ∧
    decodeText "nop".toList = .error .unknownMnemonic ∧
    decodeText "lw x5, (x1)".toList = .error .malformedOperands ∧
    decodeText "lw x5, 4(x1".toList = .error .malformedOperands ∧
    decodeText "slli x1, x2, 32".toList = .error .immediateOutOfRange ∧
    decodeText "lui x1, -1".toList = .error .immediateOutOfRange ∧
    decodeText "jal x1, 3".toList = .error .immediateMisaligned := by decide
theorem test_encode_text :
    encodeText (.addi 1 0 ⟨999, by decide⟩) = "addi    x1, x0, 999".toList ∧
    encodeText (.addi 1 0 ⟨1000, by decide⟩) = "addi    x1, x0, 0x3e8".toList ∧
    encodeText (.addi 1 0 ⟨-1000, by decide⟩) = "addi    x1, x0, -0x3e8".toList ∧
    encodeText (.lui 5 ⟨0x12345000, by decide⟩) = "lui     x5, 0x12345".toList ∧
    encodeText (.sw 1 2 ⟨2047, by decide⟩) = "sw      x2, 0x7ff(x1)".toList ∧
    encodeText (.jal 1 ⟨-1048576, by decide⟩) = "jal     x1, -0x100000".toList ∧
    encodeText (.beq 0 0 ⟨-4096, by decide⟩) = "beq     x0, x0, -0x1000".toList ∧
    encodeText (.jalr 0 1 ⟨0, by decide⟩) = "jalr    x0, 0(x1)".toList := by decide
theorem test_assemble_text :
    assembleText (["loop: addi x1, x1, 1   # count", "", "start: end: add x1,x2,x3", "label:",
      "bogus x1", "sw x2, 0(x1) ; c: not a label", "  beq x0, x0, 8  "].map String.toList)
      = ["93 80 10 00", "", "B3 00 31 00", "", "ERROR", "23 A0 20 00", "63 04 00 00"].map
          String.toList := by decide
theorem test_disassemble_text :
    disassembleText defaultAddrLabel (["B3 00 31 00", "", "93 00 50 00", "00 00 00 00",
      "b3_00_31_00", "B3 00 31", "ZZ 00 31 00", "63 04 00 00", "EF F0 DF FF", "",
      "13 01 a1 00"].map String.toList)
      = ["_0: add     x1, x2, x3", "", "_4: addi    x1, x0, 5", "_8: ERROR",
          "_c: add     x1, x2, x3", "_10: ERROR", "_14: ERROR", "_18: beq     x0, x0, 8",
          "_1c: jal     x1, -4", "", "_20: addi    x2, x2, 10"].map String.toList := by decide
theorem test_disassemble_label_format :
    disassembleText { upperCase := true, minDigits := 4, zeroX := true }
      (List.replicate 4 "13 00 00 00".toList)
      = ["_0x0000: ", "_0x0004: ", "_0x0008: ", "_0x000C: "].map
          (fun l => l.toList ++ "addi    x0, x0, 0".toList) := by decide

/-! ### Witnesses: the hypotheses of each statement can be met, at the ends of their ranges -/

open Sys2Proof.Claims

/-- Parameters in range: the test settings, the reset's, and the least ones. -/
theorem witness_config : config.Valid ∧ defaultConfig.Valid ∧ Config.Valid ⟨2, 1, false⟩ := by
  decide
theorem witness_RegisterReadAndWrite : (1 : RegIdx) ≠ 0#5 ∧ (31 : RegIdx) ≠ 0#5 ∧
    (0 : RegIdx) ≠ 31 := by decide
theorem witness_ShiftAmountsAreMasked : (37#32).toNat % 32 = (5#32).toNat % 32 := by decide
theorem witness_ImmediateInstructionResults :
    opcodeOf 0x02001013 = 0b0010011 ∧ funct3Of 0x02001013 = 0b001 ∧
    (0x02001013#32).getLsbD 25 = true ∧ literalValue "32".toList = some 32 ∧
    decodeBinary 0x41F0D193 = .ok (.srai 3 1 ⟨31, by decide⟩) := by decide
/-- A word access at the last byte of memory, and a byte outside it. -/
theorem witness_MemReadAndMemWriteByBytes :
    (state 0 []).config.Valid ∧
    (List.range 4).map (wrapped (state 0 []) 0xFF) = [0xFF, 0, 1, 2] ∧
    (∀ k < 4, 3 ≠ wrapped (state 0 []) 0xFF k) := by decide
theorem witness_DataAddressesAlias :
    (0x110#32).toNat % (state 0 []).config.memSize
      = (0x10#32).toNat % (state 0 []).config.memSize ∧ (state 0 []).config.Valid := by decide
/-- A write at the last byte of memory: a read at address 0 meets its byte 1, and not at its own
byte 3; a read of the last byte within a word write. -/
theorem witness_LittleEndianMixedWidths :
    (state 0 []).config.Valid ∧ wrapped (state 0 []) 0 0 = wrapped (state 0 []) 0xFF 1 ∧
    (∀ k < 2, wrapped (state 0 []) 0 3 ≠ wrapped (state 0 []) 0xFF k) ∧ 3 + 1 ≤ 4 := by decide
theorem witness_StoreInstructionResults :
    (state 0 [(1, 0xFF)]).config.Valid ∧
    (∀ k < 2, 1 ≠ wrapped (state 0 [(1, 0xFF)]) (effAddr (state 0 [(1, 0xFF)]) 1 0) k) := by decide
theorem witness_LoadAfterStoreReadsBack :
    (state 0 []).config.Valid ∧ (5 : RegIdx) ≠ 0#5 ∧
    (∃ t u, exec (.sw 1 2 ⟨4, by decide⟩) (state 0 []) = .next t ∧ exec (.lw 5 1 ⟨4, by decide⟩) t = .next u) ∧
    (∃ t u, exec (.sh 1 2 ⟨4, by decide⟩) (state 0 []) = .next t ∧ exec (.lhu 5 1 ⟨4, by decide⟩) t = .next u) ∧
    (∃ t u, exec (.sb 1 2 ⟨4, by decide⟩) (state 0 []) = .next t ∧ exec (.lb 5 1 ⟨4, by decide⟩) t = .next u) :=
  ⟨by decide, by decide, ⟨_, _, rfl, rfl⟩, ⟨_, _, rfl, rfl⟩, ⟨_, _, rfl, rfl⟩⟩
/-- JAL x1, 2 at 0 goes to a misaligned target, JAL x0, -4 at 0 out of the store (section 6). -/
theorem witness_JalLinksAndJumps :
    (nextOf (exec (.jal 1 ⟨2, by decide⟩) (state 0 []))).map (fun t => t.pc.toNat % 4) = some 2 ∧
    (nextOf (exec (.jal 0 ⟨-4, by decide⟩) (state 0 []))).map
      (fun t => (t.pc.toNat % 4, decide (t.config.imemWords ≤ t.pc.toNat / 4)))
      = some (0, true) := by decide
theorem witness_JalrBothOrders :
    ((state 0 []).config.jalrReadsRs1AfterLink = true ∧ (5 : RegIdx) ≠ 0#5) ∧
    (nextOf (exec (.jalr 1 2 ⟨1, by decide⟩) (state 0 [(2, 0x10)]))).map (fun t => t.pc.toNat % 4)
      = some 1 := by decide
theorem witness_NextPcMultiplexer : ∃ t, exec (.bgeu 1 2 ⟨16, by decide⟩) (state 0 []) = .next t := ⟨_, rfl⟩
theorem witness_OnlyJalrMakesThePcOdd :
    (Instr.beq 1 2 ⟨4094, by decide⟩).mnemonic ≠ .jalr ∧
    ∃ t, exec (.beq 1 2 ⟨4094, by decide⟩) (state 0 []) = .next t := ⟨by decide, _, rfl⟩
theorem witness_OnlyTheDestinationChanges :
    destReg (.sw 1 2 ⟨0, by decide⟩) ≠ some 5 ∧ destReg (.add 3 1 2) ≠ some 5 ∧
    (∃ t, exec (.sw 1 2 ⟨0, by decide⟩) (state 0 []) = .next t) ∧
    (∃ t, exec (.add 3 1 2) (state 0 []) = .next t) := ⟨by decide, by decide, ⟨_, rfl⟩, ⟨_, rfl⟩⟩
/-- Two states that differ in a register ADD x3, x1, x2 does not read. -/
theorem witness_OnlyTheSourcesMatter :
    state 0 [(4, 1)] ≠ state 0 [(4, 2)] ∧ (state 0 [(4, 1)]).pc = (state 0 [(4, 2)]).pc ∧
    (state 0 [(4, 1)]).mem = (state 0 [(4, 2)]).mem ∧
    (state 0 [(4, 1)]).config = (state 0 [(4, 2)]).config ∧
    (∀ j ∈ readsRegs (.add 3 1 2), (state 0 [(4, 1)]).readReg j = (state 0 [(4, 2)]).readReg j) ∧
    (∃ t, exec (.add 3 1 2) (state 0 [(4, 1)]) = .next t) ∧
    (∃ t, exec (.add 3 1 2) (state 0 [(4, 2)]) = .next t) :=
  ⟨by decide, by decide, by decide, by decide, by decide, ⟨_, rfl⟩, ⟨_, rfl⟩⟩
/-- A step that stores: SW x2, 0(x1). -/
theorem witness_StoresAreNeverFetched :
    ∃ t, step ((state 0 []).withFetchWord 32 0x0020A023) = .next t := ⟨_, rfl⟩

/-- ADD x1, x2, x3 in slot 3, the last slot of a store of four words. -/
def lastSlot : State :=
  { state 12 [] with imem := [(3, 0x003100B3)], config := { config with imemWords := 4 } }

theorem witness_StepRunsTheDecodedInstruction :
    lastSlot.status = .running ∧ lastSlot.pc.toNat % 4 = 0 ∧
    lastSlot.pc.toNat / 4 < lastSlot.config.imemWords ∧
    cellAt (lastSlot.pc.toNat / 4) lastSlot.imem = some 0x003100B3 ∧
    decodeBinary 0x003100B3 = .ok (.add 1 2 3) := by decide
/-- One pc for each of the four outcomes, at the ends of their ranges. -/
theorem witness_FetchAtEveryPc :
    (lastSlot.setPc 13).pc.toNat % 4 ≠ 0 ∧
    (lastSlot.setPc 16).pc.toNat % 4 = 0 ∧
    lastSlot.config.imemWords ≤ (lastSlot.setPc 16).pc.toNat / 4 ∧
    (lastSlot.setPc 8).pc.toNat / 4 < lastSlot.config.imemWords ∧
    cellAt ((lastSlot.setPc 8).pc.toNat / 4) lastSlot.imem = none ∧
    cellAt (lastSlot.pc.toNat / 4) lastSlot.imem = some 0x003100B3 := by decide
theorem witness_StepOutcomesInOrder : lastSlot.status = .running := by decide
theorem witness_FailedStepChangesOnlyTheStatus :
    (∃ t, step (lastSlot.setPc 8) = .next t ∧ t.status = .faulted .fetchUnloaded) ∧
    (lastSlot.setPc 8).iFetch = .error .fetchUnloaded ∧
    ((state 0 []).withFetchWord 32 0x0000000F).iFetch = .ok 0x0000000F ∧
    decodeBinary 0x0000000F = .error .unknownEncoding :=
  ⟨⟨_, rfl, rfl⟩, rfl, rfl, by decide⟩
theorem witness_HaltedAndFaultedAreTerminal :
    (lastSlot.haltRun).status = .halted ∧
    (lastSlot.failRun .fetchUnloaded).status = .faulted .fetchUnloaded ∧
    ∃ t, step lastSlot = .next t := ⟨rfl, rfl, _, rfl⟩
theorem witness_AllZeroWordHalts :
    ((state 0 []).withFetchWord 32 0).status = .running ∧
    ((state 0 []).withFetchWord 32 0).iFetch = .ok 0#32 := ⟨rfl, rfl⟩
theorem witness_BoundedRunsCompose :
    lastSlot.haltRun.status ≠ .running ∧ ∃ t, step lastSlot = .next t := ⟨by decide, _, rfl⟩
/-- A program that fills the store, and one word more. -/
theorem witness_LoadProgramFillsTheStore :
    (List.replicate 4 (0x13 : Word)).length ≤ lastSlot.config.imemWords ∧
    lastSlot.config.imemWords < (List.replicate 5 (0x13 : Word)).length := by decide

/-- A session with a program, registers, and a byte at each end of a memory of 256 bytes. -/
def launch : Launch :=
  { config := config, program := [0x00500093, 0], regInit := Vector.replicate 31 9
    memInit := [(0, 1), (255, 2)] }

theorem witness_SessionStartState :
    launch.program.length ≤ launch.config.imemWords ∧ ((255, 2) : Host.Cell) ∈ launch.memInit ∧
    (∀ d ∈ launch.memInit, d.1 < launch.config.memSize) ∧
    (launch.memInit.map fun d => d.1).Nodup := by decide
/-- The last entry for the last byte of memory, under an address above it, and a byte left out. -/
theorem witness_MemInitListGivesDataMemory :
    (∃ s, createSession { launch with memInit := [(255, 1), (511, 2), (0, 3)] } = some s) ∧
    511 % launch.config.memSize = 255 ∧ 255 < launch.config.memSize ∧
    (∀ c ∈ [((0, 3) : Host.Cell)], c.1 % launch.config.memSize ≠ 255) ∧
    (∀ c ∈ [((255, 1) : Host.Cell), (511, 2), (0, 3)], c.1 % launch.config.memSize ≠ 254) :=
  ⟨⟨_, rfl⟩, by decide⟩
theorem witness_NewSessionIsLegal :
    launch.config.Valid ∧ ∃ s, createSession launch = some s := ⟨by decide, _, rfl⟩
theorem witness_StepKeepsLegalStates :
    lastSlot.Inv ∧ ∃ t, step lastSlot = .next t := ⟨by decide, _, rfl⟩
theorem witness_EncodeOfDecode :
    resolve (opcodeOf 0xFE000FE3) (funct3Of 0xFE000FE3) (funct7Of 0xFE000FE3) = .ok .beq ∧
    decodeBinary 0xFE000FE3 = .ok (.beq 0 0 ⟨-2, by decide⟩) := by decide
/-- A record at an end of its set, one beyond it, and the instruction of the first. -/
theorem witness_InstrHoldsExactlyTheValidRecords :
    instrOf .auipc { rd := 31, imm := 0xFFFFF000 } = some (.auipc 31 ⟨0xFFFFF000, by decide⟩) ∧
    instrOf .bgeu { rs1 := 31, imm := 4094 } = some (.bgeu 31 0 ⟨4094, by decide⟩) ∧
    instrOf .bgeu { rs1 := 31, imm := 4096 } = none := by decide
theorem witness_ResolveAgreesWithOpcodeTable :
    (allMnemonics.filter fun m => 0#32 &&& tableMask m == tableMatch m) = [] ∧
    (allMnemonics.filter fun m => 0x403100B3#32 &&& tableMask m == tableMatch m) = [.sub] := by
  decide
/-- A word of each kind: unused selectors, and selectors in use. -/
theorem witness_UnusedSelectorsDoNotDecode :
    decodeBinary 0x02208033 = .error .unknownEncoding ∧
    decodeBinary 0x003100B3 = .ok (.add 1 2 3) := by decide
theorem witness_EncoderPlacesEveryField :
    (specFor (Instr.sub 1 2 3).mnemonic).funct3 = some 0b000 ∧
    (specFor (Instr.sub 1 2 3).mnemonic).funct7 = some 0b0100000 := by decide
/-- One literal for each outcome, at the ends of the ranges. -/
theorem witness_ParseImmediateOutcomes :
    literalValue "0x".toList = none ∧ literalValue "7".toList = some 7 ∧ (7 : Int) % 2 ^ 1 ≠ 0 ∧
    literalValue "-4096".toList = some (-4096) ∧ (-4096 : Int) % 2 ^ 1 = 0 ∧
    literalValue "4096".toList = some 4096 ∧ (4096 : Int) % 2 ^ 1 = 0 := by decide
theorem witness_AcceptedTextIsValid :
    let t := trim (stripComment "addi x1, x0, -2048 # least".toList)
    specForText (t.takeWhile fun c => !isSpace c) = .ok .addi ∧
    parseOperands .addi ((splitCommas (t.dropWhile fun c => !isSpace c)).map trim)
      = .ok { rd := 1, rs1 := 0, imm := -2048 } := by decide
/-- For assembleText a blank line, one with an instruction and one that fails; for disassembleText a
blank line, one of 7 digits, one with a character that is no digit, and the digits of a word that
decodes and of one that does not. -/
theorem witness_TransformsKeepLines :
    ["".toList, "_ ".toList][1]? = some "_ ".toList ∧
    trim (afterLastColon (stripComment "a: # b".toList)) = [] ∧
    decodeText "add x1, x2, x3".toList = .ok (.add 1 2 3) ∧
    trim (afterLastColon (stripComment "bogus x1".toList)) ≠ [] ∧
    decodeText "bogus x1".toList = .error .unknownMnemonic ∧
    ("_ ".toList.all fun ch => isSpace ch || ch == '_') = true ∧
    "b300310".toList.length ≠ 8 ∧ 'g' ∉ "0123456789abcdefABCDEF".toList ∧
    "B3003100".toList.map hexDigit =
      [some 11, some 3, some 0, some 0, some 3, some 1, some 0, some 0] ∧
    (0x003100B3#32).toNat = (16 * 11 + 3) + (16 * 0 + 0) * 2 ^ 8 + (16 * 3 + 1) * 2 ^ 16 +
      (16 * 0 + 0) * 2 ^ 24 ∧
    decodeBinary 0x003100B3 = .ok (.add 1 2 3) ∧
    "ffffffff".toList.map hexDigit = List.replicate 8 (some 15) ∧
    (0xFFFFFFFF#32).toNat = (16 * 15 + 15) + (16 * 15 + 15) * 2 ^ 8 + (16 * 15 + 15) * 2 ^ 16 +
      (16 * 15 + 15) * 2 ^ 24 ∧
    decodeBinary 0xFFFFFFFF = .error .unknownEncoding := by decide


end Sys2Proof.Tests
end

/-! ## The family of the state: registers, sessions and the run status (spec/10_state.md) -/

namespace Sys2Proof.Machine

/-! ### What an executed instruction answers -/

/-- `exec_shape`, from the state an instruction answers. -/
theorem exec_eq_next {i : Instr} {s t : State} (h : exec i s = .next t) :
    ∃ n a v rd r p, t = ((s.memWrite a v n).writeReg rd r).setPc p := by
  obtain ⟨n, a, v, rd, r, p, hexec⟩ := exec_shape i s
  rw [hexec] at h
  exact ⟨n, a, v, rd, r, p, (Host.Outcome.next.inj h).symm⟩

/-- What a register write leaves in the register file depends on the register file alone. -/
theorem State.writeReg_x_congr {s s' : State} (hx : s.x = s'.x) (i : RegIdx) (v : Word) :
    (s.writeReg i v).x = (s'.writeReg i v).x := by
  unfold State.writeReg
  split
  · exact hx
  · simp only [hx]

/-- Whatever an instruction does to the register file is one register write (R17, R31). -/
theorem exec_x_eq_writeReg {i : Instr} {s t : State} (h : exec i s = .next t) :
    ∃ rd r, t.x = (s.writeReg rd r).x := by
  obtain ⟨n, a, v, rd, r, p, rfl⟩ := exec_eq_next h
  exact ⟨rd, r, State.writeReg_x_congr (s.memWrite_x a v n) rd r⟩

/-- No instruction changes the run status (R28, R159). -/
theorem exec_status {i : Instr} {s t : State} (h : exec i s = .next t) :
    t.status = s.status := by
  obtain ⟨n, a, v, rd, r, p, rfl⟩ := exec_eq_next h
  simp

/-- A register other than x0 reads as what its slot holds (R16). -/
theorem State.readReg_of_ne_zero (s : State) {i : RegIdx} (h : i ≠ 0#5) :
    s.readReg i = s.x.getD (i.toNat - 1) 0#32 := if_neg h

/-- Settles O1: the rules of `readReg` and `writeReg`, and for the instructions `exec_shape`. -/
theorem registerReadAndWrite : Obligations.RegisterReadAndWrite := by
  refine ⟨fun i s t h => ?_, fun s i v => ⟨s.readReg_zero, s.writeReg_zero _, fun hi => ?_,
    fun j hj => s.readReg_writeReg_ne hj _, by simp, by simp, by simp, by simp, by simp⟩⟩
  · obtain ⟨rd, r, hx⟩ := exec_x_eq_writeReg h
    exact ⟨rd, r.toInt, by rw [u32_toInt, hx]⟩
  · refine ⟨s.readReg_of_ne_zero hi, ?_⟩
    rw [s.readReg_writeReg_self hi, toNat_u32]

/-! ### Run status -/

/-- A Halted machine has no step (R28). -/
theorem step_of_halted {s : State} (h : s.status = .halted) : step s = .fault .runHalted := by
  simp [step, engineStep, h]

/-- A Faulted machine has no step (R28). -/
theorem step_of_faulted {s : State} {k : FaultKind} (h : s.status = .faulted k) :
    step s = .fault (.runFaulted k) := by
  simp [step, engineStep, h]

/-- A word that was fetched always leads to a next state: it fails to decode, or executes. -/
theorem decodeAndExec_eq_next (s : State) (w : Word) : ∃ t, decodeAndExec s w = .next t := by
  unfold decodeAndExec
  split
  case h_1 k hdec => exact ⟨_, rfl⟩
  case h_2 i hdec =>
    obtain ⟨n, a, v, rd, r, p, hexec⟩ := exec_shape i s
    exact ⟨_, hexec⟩

/-- A Running machine always has a step (R31). -/
theorem exists_step_of_running {s : State} (h : s.status = .running) : ∃ t, step s = .next t := by
  cases hf : s.iFetch with
  | error k => exact ⟨_, step_of_fetch_error h hf⟩
  | ok w =>
    by_cases hw : w = 0#32
    · exact ⟨_, step_of_halt_word h (hw ▸ hf)⟩
    · rw [step_of_word h hf hw]
      exact decodeAndExec_eq_next s w

/-! ### New sessions -/

/-- A session is created exactly when the program fits, and its state is the launch's initial state
with the program in the first slots (R46, R175). -/
theorem createSession_eq_some_iff {l : Launch} {s : State} :
    createSession l = some s ↔ l.program.length ≤ l.config.imemWords ∧
      s = { l.initialState with imem := programSlots 0 l.program } := by
  unfold createSession State.loadProgram
  split
  case isTrue hfits =>
    have hfits : l.program.length ≤ l.config.imemWords := hfits
    simp [hfits, eq_comm]
  case isFalse hbig =>
    have hbig : ¬ l.program.length ≤ l.config.imemWords := hbig
    simp [hbig]

/-- Settles O28: the terminal statuses by `engineStep`, the Running one by its fetch and decode. -/
theorem haltedAndFaultedAreTerminal : Obligations.HaltedAndFaultedAreTerminal := by
  refine ⟨fun l s h => ?_, fun i s t h => exec_status h, fun s h => step_of_halted h,
    fun s k h => step_of_faulted h, fun s t h => (step_cases h).1,
    fun s h => exists_step_of_running h⟩
  obtain ⟨-, rfl⟩ := createSession_eq_some_iff.1 h
  exact ⟨rfl, rfl⟩

/-- A byte that no entry of the list addresses keeps its value. -/
theorem Memory.byteAt_foldl_setByte_of_ne {cells : List Host.Cell} {size a : Nat}
    (h : ∀ c ∈ cells, c.1 % size ≠ a) (m : Memory) :
    (cells.foldl (fun m c => m.setByte (c.1 % size) c.2) m).byteAt a = m.byteAt a := by
  induction cells generalizing m with
  | nil => rfl
  | cons c rest ih =>
    obtain ⟨hc, hrest⟩ := List.forall_mem_cons.1 h
    rw [List.foldl_cons, ih hrest, Memory.byteAt_setByte, if_neg hc]

/-- The last entry of MEM_INIT for a byte gives the byte (R34, R35). -/
theorem Launch.byteAt_memory_of_last {l : Launch} {before after : List Host.Cell} {c : Host.Cell}
    (hsplit : l.memInit = before ++ c :: after)
    (hlast : ∀ d ∈ after, d.1 % l.config.memSize ≠ c.1 % l.config.memSize) :
    l.memory.byteAt (c.1 % l.config.memSize) = c.2 := by
  rw [Launch.memory, hsplit, List.foldl_append, List.foldl_cons,
    Memory.byteAt_foldl_setByte_of_ne hlast, Memory.byteAt_setByte, if_pos rfl]

/-- Where MEM_INIT gives addresses below MEM_SIZE, each once, memory holds every byte it gives. -/
theorem Launch.byteAt_memory_of_nodup {l : Launch} (hlt : ∀ d ∈ l.memInit, d.1 < l.config.memSize)
    (hnodup : (l.memInit.map fun d => d.1).Nodup) {c : Host.Cell} (hc : c ∈ l.memInit) :
    l.memory.byteAt c.1 = c.2 := by
  obtain ⟨before, after, hsplit⟩ := List.append_of_mem hc
  have hmod : ∀ d ∈ l.memInit, d.1 % l.config.memSize = d.1 := fun d hd =>
    Nat.mod_eq_of_lt (hlt d hd)
  have hne : ∀ d ∈ after, d.1 ≠ c.1 := by
    rw [hsplit, List.map_append, List.map_cons] at hnodup
    obtain ⟨hnotMem, -⟩ := List.nodup_cons.1 hnodup.of_append_right
    exact fun d hd he => hnotMem (List.mem_map.2 ⟨d, hd, he⟩)
  have hlast : ∀ d ∈ after, d.1 % l.config.memSize ≠ c.1 % l.config.memSize := fun d hd => by
    rw [hmod d (by simp [hsplit, hd]), hmod c hc]
    exact hne d hd
  simpa only [hmod c hc] using Launch.byteAt_memory_of_last hsplit hlast

/-- Settles O32: the state of `createSession_eq_some_iff`, field by field. -/
theorem sessionStartState : Obligations.SessionStartState := by
  intro l hfits
  refine ⟨_, createSession_eq_some_iff.2 ⟨hfits, rfl⟩, rfl, rfl, rfl,
    fun i hi => State.readReg_of_ne_zero _ hi,
    fun c hc hlt hnodup => Launch.byteAt_memory_of_nodup hlt hnodup hc, fun k => ?_, rfl⟩
  simp [cellAt_programSlots]

end Sys2Proof.Machine

/-! ## The family of memory: data memory, the fetch and program load (spec/20_memory.md) -/

namespace Sys2Proof.Machine

/-! ### The bytes of a read and of a word -/

/-- The statements' wrapped address is the model's. -/
@[simp] theorem wrapped_eq_byteAddr (s : State) (a : Word) (k : Nat) :
    Claims.wrapped s a k = s.byteAddr a k := rfl

@[simp] theorem State.memRead_zero (s : State) (a : Word) : s.memRead a 0 = 0 := rfl

theorem toNat_byteOf (v : Word) (k : Nat) : (byteOf v k).toNat = v.toNat / 2 ^ (8 * k) % 2 ^ 8 := by
  rw [byteOf_eq, BitVec.toNat_ofNat]

/-- A read of `n` bytes fits `8n` bits (R38). -/
theorem State.memRead_lt (s : State) (a : Word) (n : Nat) : s.memRead a n < 2 ^ (8 * n) := by
  induction n with
  | zero => simp
  | succ n ih =>
    have hbyte : (s.readByte (s.byteAddr a n)).toNat * 2 ^ (8 * n) ≤ 255 * 2 ^ (8 * n) :=
      Nat.mul_le_mul_right _ (Nat.le_of_lt_succ (s.readByte _).isLt)
    rw [State.memRead_succ, show 8 * (n + 1) = 8 + 8 * n by ring, Nat.pow_add]
    omega

/-- Digit `i` of a read to base 256 is byte `i` of the access (R38, R41). -/
theorem State.memRead_digit (s : State) (a : Word) {n i : Nat} (hi : i < n) :
    s.memRead a n / 2 ^ (8 * i) % 2 ^ 8 = (s.readByte (s.byteAddr a i)).toNat := by
  induction n with
  | zero => omega
  | succ n ih =>
    rw [State.memRead_succ]
    rcases Nat.lt_succ_iff_lt_or_eq.1 hi with hlt | rfl
    · -- the last byte read is a multiple of 2^(8(i+1)), so it leaves digit `i` as it was
      obtain ⟨d, rfl⟩ : ∃ d, n = i + 1 + d := ⟨n - (i + 1), by omega⟩
      have hsplit (b : Nat) :
          b * 2 ^ (8 * (i + 1 + d)) = 2 ^ (8 * i) * (2 ^ 8 * (b * 2 ^ (8 * d))) := by ring
      rw [hsplit, Nat.add_mul_div_left _ _ (by positivity), Nat.add_mul_mod_self_left, ih hlt]
    · -- the bytes before the last one are below 2^(8i)
      rw [Nat.add_mul_div_right _ _ (by positivity), Nat.div_eq_of_lt (s.memRead_lt a i), zero_add]
      exact Nat.mod_eq_of_lt (s.readByte _).isLt

/-! ### The widths of an access -/

/-- The widths of R47 fit every data memory in range. -/
theorem width_le_memSize {c : Config} (hv : c.Valid) {n : Nat} (hn : n ∈ [1, 2, 4]) :
    n ≤ c.memSize := by
  have hfour := four_le_memSize hv
  simp only [List.mem_cons, List.not_mem_nil, or_false] at hn
  omega

/-- Settles O7: reads by `memRead_succ`, writes by `readByte_memWrite` and its frame. -/
theorem memReadAndMemWriteByBytes : Obligations.MemReadAndMemWriteByBytes := by
  intro s a v
  refine ⟨by simp [State.memRead_succ], by simp [State.memRead_succ],
    by simp [State.memRead_succ], fun n _ => s.memRead_lt a n, fun n hn hv k hk => ?_,
    fun n _ b hb => s.readByte_memWrite_of_ne hb⟩
  rw [wrapped_eq_byteAddr, s.readByte_memWrite (width_le_memSize hv hn) hk]
  exact toNat_byteOf v k

/-! ### Aliases (R40) -/

section
variable {s : State} {a b : Word}

/-- Addresses that agree modulo MEM_SIZE reach the same bytes. -/
theorem State.byteAddr_congr (h : a.toNat % s.config.memSize = b.toNat % s.config.memSize)
    (k : Nat) : s.byteAddr a k = s.byteAddr b k :=
  Nat.ModEq.add_right k h

theorem State.memRead_congr_addr (h : ∀ k, s.byteAddr a k = s.byteAddr b k) (n : Nat) :
    s.memRead a n = s.memRead b n := by
  induction n with
  | zero => rfl
  | succ n ih => rw [State.memRead_succ, State.memRead_succ, ih, h]

theorem State.memWrite_congr_addr (h : ∀ k, s.byteAddr a k = s.byteAddr b k) (v : Word) (n : Nat) :
    s.memWrite a v n = s.memWrite b v n := by
  induction n with
  | zero => rfl
  | succ n ih => rw [State.memWrite_succ, State.memWrite_succ, ih, h]

end

/-- The byte address of an integer is the unbounded sum modulo MEM_SIZE, since MEM_SIZE divides
2^32. -/
theorem State.byteAddr_u32 {s : State} (hv : s.config.Valid) (z : Int) (k : Nat) :
    (s.byteAddr (u32 z) k : Int) = (z + k) % (s.config.memSize : Int) := by
  obtain ⟨-, hlog, -, -⟩ := hv
  have hdvd : (s.config.memSize : Int) ∣ 2 ^ 32 := by
    exact_mod_cast Nat.pow_dvd_pow 2 hlog
  rw [State.byteAddr, Int.natCast_mod, Nat.cast_add, toNat_u32, Int.add_emod,
    Int.emod_emod_of_dvd _ hdvd, ← Int.add_emod]

/-- No instruction fails, whatever it addresses (R40, R159). -/
theorem exists_exec_eq_next (i : Instr) (s : State) : ∃ t, exec i s = .next t := by
  obtain ⟨n, a, v, rd, r, p, hexec⟩ := exec_shape i s
  exact ⟨_, hexec⟩

/-- Settles O8: an access depends on its address only through `byteAddr`. -/
theorem dataAddressesAlias : Obligations.DataAddressesAlias :=
  ⟨fun i s _ => exists_exec_eq_next i s,
    fun _ _ _ v n h => ⟨State.memRead_congr_addr (State.byteAddr_congr h) n,
      State.memWrite_congr_addr (State.byteAddr_congr h) v n⟩,
    fun _ z k hv => State.byteAddr_u32 hv z k⟩

/-! ### Byte order (R41) -/

/-- A read of `m` bytes at distance `d` into a write of `n` bytes: those bytes of the value. -/
theorem State.memRead_memWrite_at {s : State} (hv : s.config.Valid) (a v : Word) {n d m : Nat}
    (hn : n ≤ s.config.memSize) (hm : d + m ≤ n) :
    (s.memWrite a v n).memRead (a + BitVec.ofNat 32 d) m = v.toNat / 2 ^ (8 * d) % 2 ^ (8 * m) := by
  induction m with
  | zero => simp [Nat.mod_one]
  | succ m ih =>
    rw [State.memRead_succ, ih (by omega), State.memWrite_byteAddr, State.byteAddr_add hv,
      State.readByte_memWrite s hn (by omega), toNat_byteOf,
      show 8 * (m + 1) = 8 * m + 8 by ring, Nat.pow_add, Nat.mod_mul,
      Nat.div_div_eq_div_mul, ← Nat.pow_add, ← Nat.mul_add]
    ring

/-- Settles O9: a read byte by byte is `memRead_digit`, a read within the write
`memRead_memWrite_at`, of which the five reads of the rule are cases. -/
theorem littleEndianMixedWidths : Obligations.LittleEndianMixedWidths := by
  refine ⟨fun s a v b hv n hn m _ i hi => ?_, fun s a v hv n hn m _ d hd =>
    State.memRead_memWrite_at hv a v (width_le_memSize hv hn) hd, fun s a hv => ?_⟩
  · simp only [wrapped_eq_byteAddr, State.memRead_digit _ b hi, State.memWrite_byteAddr]
    refine ⟨fun k hk heq => ?_, fun hne => by rw [s.readByte_memWrite_of_ne hne]⟩
    rw [heq, s.readByte_memWrite (width_le_memSize hv hn) hk, toNat_byteOf]
  · have hfour := four_le_memSize hv
    have hat : ∀ d m, d + m ≤ 4 → (s.memWrite a 0x11223344 4).memRead (a + BitVec.ofNat 32 d) m
        = 0x11223344 / 2 ^ (8 * d) % 2 ^ (8 * m) := fun d m hd =>
      State.memRead_memWrite_at hv a 0x11223344 hfour hd
    have hstart : ∀ m, m ≤ 4 → (s.memWrite a 0x11223344 4).memRead a m
        = 0x11223344 % 2 ^ (8 * m) := fun m hm => s.memRead_memWrite a 0x11223344 hfour hm
    exact ⟨hstart 4 (by omega), hstart 1 (by omega), hat 1 1 (by omega), hstart 2 (by omega),
      hat 2 2 (by omega)⟩

/-! ### The instruction store: fetch and load -/

/-- No instruction changes the instruction store or the parameters (R36). -/
theorem exec_imem_config {i : Instr} {s t : State} (h : exec i s = .next t) :
    t.imem = s.imem ∧ t.config = s.config := by
  obtain ⟨n, a, v, rd, r, p, rfl⟩ := exec_eq_next h
  simp

/-- No step changes the instruction store or the parameters (R54). -/
theorem step_imem_config {s t : State} (h : step s = .next t) :
    t.imem = s.imem ∧ t.config = s.config := by
  obtain ⟨-, ⟨k, -, rfl⟩ | ⟨-, rfl⟩ | ⟨w, k, -, -, -, rfl⟩ | ⟨w, i, -, -, -, hexec⟩⟩ := step_cases h
  · exact ⟨rfl, rfl⟩
  · exact ⟨rfl, rfl⟩
  · exact ⟨rfl, rfl⟩
  · exact exec_imem_config hexec

/-- Settles O23: a fetch reads only what `step_imem_config` says no step changes. -/
theorem storesAreNeverFetched : Obligations.StoresAreNeverFetched := by
  intro s t h
  obtain ⟨himem, hconfig⟩ := step_imem_config h
  exact ⟨himem, fun pc => State.iFetch_congr rfl himem hconfig⟩

section
variable {s : State} {words : List Word}

/-- A program that fits is loaded into the first slots (R46). -/
theorem State.loadProgram_of_le (h : words.length ≤ s.config.imemWords) :
    s.loadProgram words = some { s with imem := programSlots 0 words } := if_pos h

/-- A program larger than the store is refused (R46). -/
theorem State.loadProgram_of_lt (h : s.config.imemWords < words.length) :
    s.loadProgram words = none := if_neg (Nat.not_le.2 h)

end

/-- Settles O31: the load by its two cases, the slots by `cellAt_programSlots`. -/
theorem loadProgramFillsTheStore : Obligations.LoadProgramFillsTheStore := by
  refine ⟨fun _ => rfl, fun s words => ⟨fun hfits => ?_, State.loadProgram_of_lt⟩⟩
  refine ⟨_, State.loadProgram_of_le hfits, fun k => ?_, rfl, rfl, rfl, rfl, rfl⟩
  simp [cellAt_programSlots]

section
variable {s : State}

/-- The first failure of a fetch (R45, D9). -/
theorem State.iFetch_misaligned (h : s.pc.toNat % 4 ≠ 0) : s.iFetch = .error .fetchMisaligned :=
  if_pos h

/-- The second failure of a fetch (R45, D10). -/
theorem State.iFetch_outOfRange (haligned : s.pc.toNat % 4 = 0)
    (h : s.config.imemWords ≤ s.pc.toNat / 4) : s.iFetch = .error .fetchOutOfRange := by
  rw [State.iFetch, if_neg (not_not.2 haligned), if_pos h]

/-- The third failure of a fetch (R45, D11). -/
theorem State.iFetch_unloaded (haligned : s.pc.toNat % 4 = 0)
    (hrange : s.pc.toNat / 4 < s.config.imemWords) (h : cellAt (s.pc.toNat / 4) s.imem = none) :
    s.iFetch = .error .fetchUnloaded := by
  rw [State.iFetch, if_neg (not_not.2 haligned), if_neg (Nat.not_le.2 hrange), h]

end

/-- Settles O25: the fetch by its four cases, the end of the run by `step_of_fetch_error`. -/
theorem fetchAtEveryPc : Obligations.FetchAtEveryPc := fun _ =>
  ⟨State.iFetch_misaligned, State.iFetch_outOfRange, State.iFetch_unloaded,
    fun _ haligned hrange hslot => State.iFetch_ok haligned hrange hslot,
    fun _ hrunning hfail => step_of_fetch_error hrunning hfail⟩

end Sys2Proof.Machine

/-! ## The family of encoding: the decoder and the encoder (spec/30_encoding.md) -/

namespace Sys2Proof

open Claims

/-! ### Round trips (R83, R84) -/

/-- An encoded instruction carries the selectors of its mnemonic's row (R81). -/
theorem matchesSelectors_encode (i : Instr) :
    (specFor i.mnemonic).matchesSelectors (opcodeOf (encode i)) (funct3Of (encode i))
      (funct7Of (encode i)) = true := by
  cases i
  exacts [Laws.Selectors.lui _ _, Laws.Selectors.auipc _ _, Laws.Selectors.jal _ _,
    Laws.Selectors.jalr _ _ _, Laws.Selectors.beq _ _ _, Laws.Selectors.bne _ _ _,
    Laws.Selectors.blt _ _ _, Laws.Selectors.bge _ _ _, Laws.Selectors.bltu _ _ _,
    Laws.Selectors.bgeu _ _ _, Laws.Selectors.lb _ _ _, Laws.Selectors.lh _ _ _,
    Laws.Selectors.lw _ _ _, Laws.Selectors.lbu _ _ _, Laws.Selectors.lhu _ _ _,
    Laws.Selectors.sb _ _ _, Laws.Selectors.sh _ _ _, Laws.Selectors.sw _ _ _,
    Laws.Selectors.addi _ _ _, Laws.Selectors.slti _ _ _, Laws.Selectors.sltiu _ _ _,
    Laws.Selectors.xori _ _ _, Laws.Selectors.ori _ _ _, Laws.Selectors.andi _ _ _,
    Laws.Selectors.slli _ _ _, Laws.Selectors.srli _ _ _, Laws.Selectors.srai _ _ _,
    Laws.Selectors.add _ _ _, Laws.Selectors.sub _ _ _, Laws.Selectors.sll _ _ _,
    Laws.Selectors.slt _ _ _, Laws.Selectors.sltu _ _ _, Laws.Selectors.xor _ _ _,
    Laws.Selectors.srl _ _ _, Laws.Selectors.sra _ _ _, Laws.Selectors.or _ _ _,
    Laws.Selectors.and _ _ _]

/-- The fields read from an encoded instruction are the instruction's own. -/
theorem fieldsOf_encode (i : Instr) : fieldsOf i.mnemonic (encode i) = i := by
  cases i
  case lui | auipc => simp [encode, Instr.mnemonic, fieldsOf, encodeU_fields]
  case jal => simp [encode, Instr.mnemonic, fieldsOf, encodeJ_fields]
  case sb | sh | sw => simp [encode, Instr.mnemonic, fieldsOf, encodeS_fields]
  case beq | bne | blt | bge | bltu | bgeu =>
    simp [encode, Instr.mnemonic, fieldsOf, encodeB_fields]
  case slli | srli | srai => simp [encode, Instr.mnemonic, fieldsOf, encodeI2_fields]
  case add | sub | sll | slt | sltu | xor | srl | sra | or | and =>
    simp [encode, Instr.mnemonic, fieldsOf, encodeR_fields]
  all_goals simp [encode, Instr.mnemonic, fieldsOf, encodeI_fields]

/-- Settles O37: an encoded instruction matches its own row, and its fields read back. -/
theorem decodeOfEncode : Obligations.DecodeOfEncode := by
  intro i
  rw [encodeBinary, decodeBinary_of_matches (matchesSelectors_encode i), fieldsOf_encode]

section
variable {op : BitVec 7} {f3 : BitVec 3} {f7 : BitVec 7} {m : Mnemonic}

/-- Resolve answers exactly the mnemonic whose row matches (R78). -/
theorem resolve_eq_ok_iff :
    resolve op f3 f7 = .ok m ↔ (specFor m).matchesSelectors op f3 f7 = true :=
  ⟨matches_of_resolve, resolve_of_matches⟩

/-- A matching row's opcode is the word's. -/
theorem opcode_of_matches (h : (specFor m).matchesSelectors op f3 f7 = true) :
    (specFor m).opcode = op := by
  simp [InstructionSpec.matchesSelectors] at h; exact h.1.1

/-- A matching row's funct3, if it has one, is the word's. -/
theorem funct3_of_matches (h : (specFor m).matchesSelectors op f3 f7 = true) {c : BitVec 3}
    (hc : (specFor m).funct3 = some c) : c = f3 := by
  simp [InstructionSpec.matchesSelectors, hc] at h
  exact h.1.2

/-- A matching row's funct7, if it has one, is the word's. -/
theorem funct7_of_matches (h : (specFor m).matchesSelectors op f3 f7 = true) {c : BitVec 7}
    (hc : (specFor m).funct7 = some c) : c = f7 := by
  simp [InstructionSpec.matchesSelectors, hc] at h
  exact h.2

end

/-- The fields of a matching row's format, encoded, are the word they were read from. -/
theorem encode_fieldsOf {m : Mnemonic} {w : Word}
    (h : (specFor m).matchesSelectors (opcodeOf w) (funct3Of w) (funct7Of w) = true) :
    encode (fieldsOf m w) = w := by
  have hop := opcode_of_matches h
  have h3 {c} (hc : (specFor m).funct3 = some c) : c = funct3Of w := funct3_of_matches h hc
  have h7 {c} (hc : (specFor m).funct7 = some c) : c = funct7Of w := funct7_of_matches h hc
  cases m
  case lui | auipc => exact encodeU_self hop
  case jal => exact encodeJ_self hop
  case sb | sh | sw => exact encodeS_self hop (h3 rfl)
  case beq | bne | blt | bge | bltu | bgeu => exact encodeB_self hop (h3 rfl)
  case slli | srli | srai => exact encodeI2_self hop (h3 rfl) (h7 rfl)
  case add | sub | sll | slt | sltu | xor | srl | sra | or | and =>
    exact encodeR_self hop (h3 rfl) (h7 rfl)
  all_goals exact encodeI_self hop (h3 rfl)

theorem encode_of_decodeBinary {w : Word} {i : Instr} (h : decodeBinary w = .ok i) :
    encode i = w := by
  obtain ⟨m, hm, rfl⟩ := decodeBinary_ok h
  exact encode_fieldsOf hm

/-- Settles O38: a word that decodes is the encoding of what it decodes to, by `encode_fieldsOf`. -/
theorem encodeOfDecode : Obligations.EncodeOfDecode := by
  refine ⟨fun w m hm => ?_, fun w i h => encode_of_decodeBinary h, fun w w' i h h' => ?_⟩
  · have hmatch := matches_of_resolve hm
    exact ⟨fieldsOf m w, decodeBinary_of_matches hmatch, fieldsOf_mnemonic m w,
      encode_fieldsOf hmatch⟩
  · rw [← encode_of_decodeBinary h, encode_of_decodeBinary h']

/-! ### Match and mask (R76, R78) -/

/-- A word is its fields put together (R57). -/
theorem eq_append_fields (w : Word) :
    w = funct7Of w ++ rs2Of w ++ rs1Of w ++ funct3Of w ++ rdOf w ++ opcodeOf w := by
  apply BitVec.eq_of_getLsbD_eq
  intro i hi
  simp only [BitVec.getLsbD_append, rs1Of, rs2Of, funct3Of, opcodeOf, rdOf, funct7Of,
    BitVec.getLsbD_extractLsb]
  interval_cases i <;> simp

/-- Words are equal exactly when their fields are. -/
theorem word_eq_iff_fields {w w' : Word} :
    w = w' ↔ opcodeOf w = opcodeOf w' ∧ funct3Of w = funct3Of w' ∧ funct7Of w = funct7Of w' ∧
      rdOf w = rdOf w' ∧ rs1Of w = rs1Of w' ∧ rs2Of w = rs2Of w' := by
  refine ⟨by rintro rfl; simp, fun ⟨hop, h3, h7, hd, h1, h2⟩ => ?_⟩
  rw [eq_append_fields w, hop, h3, h7, hd, h1, h2, ← eq_append_fields w']

/-- The fields of a conjunction of words. -/
theorem fields_and (w w' : Word) :
    opcodeOf (w &&& w') = opcodeOf w &&& opcodeOf w' ∧
    funct3Of (w &&& w') = funct3Of w &&& funct3Of w' ∧
    funct7Of (w &&& w') = funct7Of w &&& funct7Of w' ∧
    rdOf (w &&& w') = rdOf w &&& rdOf w' ∧ rs1Of (w &&& w') = rs1Of w &&& rs1Of w' ∧
    rs2Of (w &&& w') = rs2Of w &&& rs2Of w' := by
  simp only [opcodeOf, funct3Of, funct7Of, rdOf, rs1Of, rs2Of, BitVec.extractLsb_and, and_self]

/-- The mask of a selector: all of its bits where the row has it, none where it has not. -/
def selectorMask {n : Nat} (selector : Option (BitVec n)) : BitVec n :=
  if selector.isSome then BitVec.allOnes n else 0#n

/-- Bits agree with a selector under its mask exactly when they are its value or it is absent. -/
theorem and_selectorMask_eq_iff {n : Nat} (selector : Option (BitVec n)) (x : BitVec n) :
    x &&& selectorMask selector = selector.getD 0 ↔ selector.all (· == x) = true := by
  cases selector with
  | none => simp [selectorMask]
  | some c => simpa [selectorMask] using eq_comm

theorem tableMatch_fields (m : Mnemonic) :
    opcodeOf (tableMatch m) = (specFor m).opcode ∧
    funct3Of (tableMatch m) = (specFor m).funct3.getD 0 ∧
    funct7Of (tableMatch m) = (specFor m).funct7.getD 0 ∧
    rdOf (tableMatch m) = 0#5 ∧ rs1Of (tableMatch m) = 0#5 ∧ rs2Of (tableMatch m) = 0#5 := by
  cases m <;> decide

theorem tableMask_fields (m : Mnemonic) :
    opcodeOf (tableMask m) = BitVec.allOnes 7 ∧
    funct3Of (tableMask m) = selectorMask (specFor m).funct3 ∧
    funct7Of (tableMask m) = selectorMask (specFor m).funct7 ∧
    rdOf (tableMask m) = 0#5 ∧ rs1Of (tableMask m) = 0#5 ∧ rs2Of (tableMask m) = 0#5 := by
  cases m <;> decide

/-- Agreeing with a row's match under its mask is matching its selectors, field by field (R78). -/
theorem and_tableMask_eq_iff (w : Word) (m : Mnemonic) :
    w &&& tableMask m = tableMatch m ↔
      (specFor m).matchesSelectors (opcodeOf w) (funct3Of w) (funct7Of w) = true := by
  rw [word_eq_iff_fields]
  simp only [fields_and, tableMask_fields, tableMatch_fields, and_selectorMask_eq_iff,
    InstructionSpec.matchesSelectors, Bool.and_eq_true, beq_iff_eq, BitVec.and_allOnes,
    BitVec.and_zero, and_true, and_assoc]
  exact and_congr_left' eq_comm

/-- The rows that agree with a word under their masks are its candidates (R76). -/
theorem filter_tableMask (w : Word) :
    (allMnemonics.filter fun m => w &&& tableMask m == tableMatch m) =
      candidates (opcodeOf w) (funct3Of w) (funct7Of w) := by
  refine List.filter_congr fun m _ => ?_
  rw [Bool.eq_iff_iff, beq_iff_eq, and_tableMask_eq_iff]

section
variable {op : BitVec 7} {f3 : BitVec 3} {f7 : BitVec 7}

/-- No word is ambiguous (C4). -/
theorem resolve_ne_ambiguous : resolve op f3 f7 ≠ .error .ambiguousEncoding := fun h =>
  absurd (resolve_error h) (by decide)

/-- At most one row matches (R76): with two, `resolve` would answer AmbiguousEncoding. -/
theorem length_candidates_le_one : (candidates op f3 f7).length ≤ 1 := by
  match h : candidates op f3 f7 with
  | [] => simp
  | [m] => simp
  | m :: m' :: rest => exact absurd (by rw [resolve, h]) resolve_ne_ambiguous

end

/-- Settles O40: agreeing under the mask is matching, by `and_tableMask_eq_iff`. -/
theorem resolveAgreesWithOpcodeTable : Obligations.ResolveAgreesWithOpcodeTable := by
  intro w
  simp only [filter_tableMask]
  refine ⟨length_candidates_le_one, fun h => by rw [resolve, h], fun m h => by rw [resolve, h],
    fun m => (and_tableMask_eq_iff w m).trans resolve_eq_ok_iff.symm, resolve_ne_ambiguous⟩

/-! ### Unused selectors (R79) -/

theorem funct3_cases : ∀ c : BitVec 3,
    c = 0 ∨ c = 1 ∨ c = 2 ∨ c = 3 ∨ c = 4 ∨ c = 5 ∨ c = 6 ∨ c = 7 := by decide

section
variable {op : BitVec 7} {f3 : BitVec 3} {f7 : BitVec 7}

/-- No row of the table uses the selectors R79 lists. -/
theorem not_unusedSelectors_of_matches {m : Mnemonic}
    (h : (specFor m).matchesSelectors op f3 f7 = true) : ¬UnusedSelectors op f3 f7 := by
  cases m <;> simp [InstructionSpec.matchesSelectors, specFor] at h <;>
    (obtain ⟨⟨rfl, rfl⟩, rfl⟩ := h; simp [UnusedSelectors])

/-- Selectors that R79 does not list are those of a row: the rows, opcode by opcode. -/
theorem exists_matches_of_not_unusedSelectors (h : ¬UnusedSelectors op f3 f7) :
    ∃ m, (specFor m).matchesSelectors op f3 f7 = true := by
  simp only [UnusedSelectors, not_or, not_and, not_not] at h
  obtain ⟨hop, hload, hstore, hbranch, hjalr, hslli, hright, hreg, halt⟩ := h
  simp only [List.mem_cons, List.not_mem_nil, or_false] at hop hright hreg halt
  rcases hop with rfl | rfl | rfl | rfl | rfl | rfl | rfl | rfl | rfl
  · -- 0000011, the loads
    have hload := hload rfl
    rcases funct3_cases f3 with rfl | rfl | rfl | rfl | rfl | rfl | rfl | rfl
    exacts [⟨.lb, rfl⟩, ⟨.lh, rfl⟩, ⟨.lw, rfl⟩, absurd hload (by decide), ⟨.lbu, rfl⟩,
      ⟨.lhu, rfl⟩, absurd hload (by decide), absurd hload (by decide)]
  · -- 0010011, the immediate ALU operations: only the shifts have a funct7
    rcases funct3_cases f3 with rfl | rfl | rfl | rfl | rfl | rfl | rfl | rfl
    exacts [⟨.addi, rfl⟩, ⟨.slli, hslli rfl rfl ▸ rfl⟩, ⟨.slti, rfl⟩, ⟨.sltiu, rfl⟩, ⟨.xori, rfl⟩,
      (hright rfl rfl).elim (fun h7 => ⟨.srli, h7 ▸ rfl⟩) fun h7 => ⟨.srai, h7 ▸ rfl⟩,
      ⟨.ori, rfl⟩, ⟨.andi, rfl⟩]
  · exact ⟨.auipc, rfl⟩
  · -- 0100011, the stores
    have hstore := hstore rfl
    rcases funct3_cases f3 with rfl | rfl | rfl | rfl | rfl | rfl | rfl | rfl
    exacts [⟨.sb, rfl⟩, ⟨.sh, rfl⟩, ⟨.sw, rfl⟩, absurd hstore (by decide),
      absurd hstore (by decide), absurd hstore (by decide), absurd hstore (by decide),
      absurd hstore (by decide)]
  · -- 0110011, the register operations
    obtain rfl | rfl := hreg rfl
    · rcases funct3_cases f3 with rfl | rfl | rfl | rfl | rfl | rfl | rfl | rfl
      exacts [⟨.add, rfl⟩, ⟨.sll, rfl⟩, ⟨.slt, rfl⟩, ⟨.sltu, rfl⟩, ⟨.xor, rfl⟩, ⟨.srl, rfl⟩,
        ⟨.or, rfl⟩, ⟨.and, rfl⟩]
    · obtain rfl | rfl := halt rfl rfl
      exacts [⟨.sub, rfl⟩, ⟨.sra, rfl⟩]
  · exact ⟨.lui, rfl⟩
  · -- 1100011, the branches
    have hbranch := hbranch rfl
    rcases funct3_cases f3 with rfl | rfl | rfl | rfl | rfl | rfl | rfl | rfl
    exacts [⟨.beq, rfl⟩, ⟨.bne, rfl⟩, absurd hbranch (by decide), absurd hbranch (by decide),
      ⟨.blt, rfl⟩, ⟨.bge, rfl⟩, ⟨.bltu, rfl⟩, ⟨.bgeu, rfl⟩]
  · obtain rfl := hjalr rfl
    exact ⟨.jalr, rfl⟩
  · exact ⟨.jal, rfl⟩

/-- The unused selectors are those no row has (R79). -/
theorem unusedSelectors_iff : UnusedSelectors op f3 f7 ↔
    ∀ m, (specFor m).matchesSelectors op f3 f7 ≠ true := by
  refine ⟨fun h m hm => not_unusedSelectors_of_matches hm h, fun h => ?_⟩
  by_contra hused
  obtain ⟨m, hm⟩ := exists_matches_of_not_unusedSelectors hused
  exact h m hm

end

/-- The decoder fails in one way only (R80, C4). -/
theorem decodeBinary_error {w : Word} {k : FaultKind} (h : decodeBinary w = .error k) :
    k = .unknownEncoding := by
  unfold decodeBinary at h
  split at h
  · cases h
  · rename_i hk
    cases h
    exact resolve_error hk

theorem decodeBinary_unknown_iff {w : Word} :
    decodeBinary w = .error .unknownEncoding ↔ ∀ i, decodeBinary w ≠ .ok i := by
  cases h : decodeBinary w with
  | ok i => simp
  | error k => simp [decodeBinary_error h]

/-- A word decodes to nothing exactly when no row matches it (R79, R85). -/
theorem decodeBinary_ne_ok_iff {w : Word} : (∀ i, decodeBinary w ≠ .ok i) ↔
    UnusedSelectors (opcodeOf w) (funct3Of w) (funct7Of w) := by
  rw [unusedSelectors_iff]
  refine ⟨fun h m hm => h _ (decodeBinary_of_matches hm), fun h i hi => ?_⟩
  obtain ⟨m, hm, -⟩ := decodeBinary_ok hi
  exact h m hm

/-- Settles O41: the words that do not decode are those no row matches, and the rows leave exactly
the selectors of R79 unused. -/
theorem unusedSelectorsDoNotDecode : Obligations.UnusedSelectorsDoNotDecode := fun _ =>
  decodeBinary_unknown_iff.trans decodeBinary_ne_ok_iff

theorem decodeBinary_of_unused {w : Word}
    (h : UnusedSelectors (opcodeOf w) (funct3Of w) (funct7Of w)) :
    decodeBinary w = .error .unknownEncoding :=
  (unusedSelectorsDoNotDecode w).2 h

/-! ### Bit ranges and fields as numbers (R68 to R74) -/

/-- A bit range of a bit vector as a number. -/
theorem toNat_extractLsb {n : Nat} (x : BitVec n) {hi lo : Nat} (h : lo ≤ hi) :
    (x.extractLsb hi lo).toNat = x.toNat / 2 ^ lo % 2 ^ (hi + 1 - lo) := by
  rw [BitVec.extractLsb_toNat, Nat.shiftRight_eq_div_pow, Nat.sub_add_comm h]

/-- A bit range of a word as a number: the range the statements compute. -/
theorem bits_eq_toNat (w : Word) {hi lo : Nat} (h : lo ≤ hi) :
    bits w hi lo = (w.extractLsb hi lo).toNat := (toNat_extractLsb w h).symm

/-- The two's-complement reading of a bit vector, over numbers (R9). -/
theorem toInt_eq_sextOf {n : Nat} (hn : 0 < n) (x : BitVec n) : x.toInt = sextOf n x.toNat := by
  have hpow : 2 ^ n = 2 * 2 ^ (n - 1) := by rw [← pow_succ', Nat.sub_add_cancel hn]
  rw [BitVec.toInt_eq_toNat_cond, sextOf]
  by_cases hx : x.toNat < 2 ^ (n - 1)
  · rw [if_pos (by omega), if_pos hx]
  · rw [if_neg (by omega), if_neg hx, Nat.cast_pow, Nat.cast_ofNat]

/-- Bit vectors put together, as numbers. -/
theorem toNat_append_eq {n k : Nat} (x : BitVec n) (y : BitVec k) :
    (x ++ y).toNat = x.toNat * 2 ^ k + y.toNat := by
  rw [BitVec.toNat_append, ← Nat.shiftLeft_add_eq_or_of_lt y.isLt, Nat.shiftLeft_eq]

/-- Settles O43: the bit patterns of R68 to R73, read as numbers by the lemmas above. -/
theorem decodedImmediates : Obligations.DecodedImmediates := by
  intro w
  refine ⟨?_, ?_, ?_, ?_, ?_, ?_⟩
  · rw [immI_val, toInt_eq_sextOf (by decide), bits_eq_toNat w (by decide)]
  · rw [immI2_val, bits_eq_toNat w (by decide)]
  · rw [immS_val, toInt_eq_sextOf (by decide), toNat_append_eq, bits_eq_toNat w (by decide),
      bits_eq_toNat w (by decide)]
  · rw [immB_val, toInt_eq_sextOf (by decide)]
    simp (disch := decide) only [toNat_append_eq, bits_eq_toNat, BitVec.toNat_ofNat]
    congr 1
    omega
  · rw [immU_val, bits_eq_toNat w (by decide)]
  · rw [immJ_val, toInt_eq_sextOf (by decide)]
    simp (disch := decide) only [toNat_append_eq, bits_eq_toNat, BitVec.toNat_ofNat]
    congr 1
    omega

/-! ### Where the encoder puts each field (R74, R81) -/

/-- Bits [hi:lo] of an immediate reduced to `n` bits, as a number (R81). -/
def immBits (n : Nat) (v : Int) (hi lo : Nat) : Nat :=
  (v % 2 ^ n).toNat / 2 ^ lo % 2 ^ (hi + 1 - lo)

theorem bits_lt (w : Word) (hi lo : Nat) : bits w hi lo < 2 ^ (hi + 1 - lo) :=
  Nat.mod_lt _ (by positivity)

theorem toNat_ofInt_eq (n : Nat) (v : Int) : (BitVec.ofInt n v).toNat = (v % 2 ^ n).toNat := by
  rw [BitVec.toNat_ofInt, Nat.cast_pow, Nat.cast_ofNat]

section
variable (w : Word)

theorem bits_opcode : bits w 6 0 = (opcodeOf w).toNat := bits_eq_toNat w (by decide)
theorem bits_rd : bits w 11 7 = (rdOf w).toNat := bits_eq_toNat w (by decide)
theorem bits_funct3 : bits w 14 12 = (funct3Of w).toNat := bits_eq_toNat w (by decide)
theorem bits_rs1 : bits w 19 15 = (rs1Of w).toNat := bits_eq_toNat w (by decide)
theorem bits_rs2 : bits w 24 20 = (rs2Of w).toNat := bits_eq_toNat w (by decide)
theorem bits_funct7 : bits w 31 25 = (funct7Of w).toNat := bits_eq_toNat w (by decide)

end

section
variable {w : Word} {v : Int}

/-- The two ranges of format S hold the immediate's bits that they make up together (R62). -/
theorem immBits_of_layoutS (h : w.extractLsb 31 25 ++ w.extractLsb 11 7 = BitVec.ofInt 12 v) :
    bits w 31 25 = immBits 12 v 11 5 ∧ bits w 11 7 = immBits 12 v 4 0 := by
  have hsum := congrArg BitVec.toNat h
  simp (disch := decide) only [toNat_append_eq, ← bits_eq_toNat, toNat_ofInt_eq] at hsum
  have hlow := bits_lt w 11 7
  have hhigh := bits_lt w 31 25
  constructor <;> unfold immBits <;> omega

/-- The four ranges of format B hold the immediate's bits that they make up together (R63). -/
theorem immBits_of_layoutB (h : w.extractLsb 31 31 ++ w.extractLsb 7 7 ++ w.extractLsb 30 25 ++
      w.extractLsb 11 8 ++ 0#1 = BitVec.ofInt 13 v) :
    bits w 31 31 = immBits 13 v 12 12 ∧ bits w 30 25 = immBits 13 v 10 5 ∧
      bits w 11 8 = immBits 13 v 4 1 ∧ bits w 7 7 = immBits 13 v 11 11 := by
  have hsum := congrArg BitVec.toNat h
  simp (disch := decide) only [toNat_append_eq, ← bits_eq_toNat, toNat_ofInt_eq,
    BitVec.toNat_ofNat] at hsum
  have h12 := bits_lt w 31 31
  have h11 := bits_lt w 7 7
  have h10 := bits_lt w 30 25
  have h4 := bits_lt w 11 8
  refine ⟨?_, ?_, ?_, ?_⟩ <;> unfold immBits <;> omega

/-- The four ranges of format J hold the immediate's bits that they make up together (R65). -/
theorem immBits_of_layoutJ (h : w.extractLsb 31 31 ++ w.extractLsb 19 12 ++ w.extractLsb 20 20 ++
      w.extractLsb 30 21 ++ 0#1 = BitVec.ofInt 21 v) :
    bits w 31 31 = immBits 21 v 20 20 ∧ bits w 30 21 = immBits 21 v 10 1 ∧
      bits w 20 20 = immBits 21 v 11 11 ∧ bits w 19 12 = immBits 21 v 19 12 := by
  have hsum := congrArg BitVec.toNat h
  simp (disch := decide) only [toNat_append_eq, ← bits_eq_toNat, toNat_ofInt_eq,
    BitVec.toNat_ofNat] at hsum
  have h20 := bits_lt w 31 31
  have h19 := bits_lt w 19 12
  have h11 := bits_lt w 20 20
  have h10 := bits_lt w 30 21
  refine ⟨?_, ?_, ?_, ?_⟩ <;> unfold immBits <;> omega

end

section
variable (m : Mnemonic) (rd rs1 rs2 : RegIdx)

theorem bits_encodeR :
    let w := encodeR m rd rs1 rs2
    bits w 11 7 = rd.toNat ∧ bits w 19 15 = rs1.toNat ∧ bits w 24 20 = rs2.toNat := by
  obtain ⟨-, -, -, hrd, hrs1, hrs2⟩ := encodeR_fields m rd rs1 rs2
  simp only [bits_rd, bits_rs1, bits_rs2, hrd, hrs1, hrs2, and_self]

theorem bits_encodeI (imm : ImmI) :
    let w := encodeI m rd rs1 imm
    bits w 11 7 = rd.toNat ∧ bits w 19 15 = rs1.toNat ∧
      bits w 31 20 = (imm.val % 2 ^ 12).toNat := by
  obtain ⟨-, -, hrd, hrs1, himm⟩ := encodeI_fields m rd rs1 imm
  simp only [bits_rd, bits_rs1, bits_eq_toNat _ (show 20 ≤ 31 by decide), hrd, hrs1, himm,
    toNat_ofInt_eq, and_self]

theorem bits_encodeI2 (imm : Shamt) :
    let w := encodeI2 m rd rs1 imm
    bits w 11 7 = rd.toNat ∧ bits w 19 15 = rs1.toNat ∧ bits w 24 20 = imm.val := by
  obtain ⟨-, -, -, hrd, hrs1, himm⟩ := encodeI2_fields m rd rs1 imm
  have hrange : imm.val ≤ 31 := imm.2
  refine ⟨by rw [bits_rd, hrd], by rw [bits_rs1, hrs1], ?_⟩
  rw [bits_eq_toNat _ (by decide), himm, BitVec.toNat_ofNat]
  omega

theorem bits_encodeU (imm : ImmU) :
    let w := encodeU m rd imm
    bits w 11 7 = rd.toNat ∧ bits w 31 12 = imm.val / 4096 := by
  obtain ⟨-, hrd, himm⟩ := encodeU_fields m rd imm
  have hrange := imm.2.1
  refine ⟨by rw [bits_rd, hrd], ?_⟩
  rw [bits_eq_toNat _ (by decide), himm, BitVec.toNat_ofNat]
  omega

theorem bits_encodeS (imm : ImmI) :
    let w := encodeS m rs1 rs2 imm
    bits w 19 15 = rs1.toNat ∧ bits w 24 20 = rs2.toNat ∧
      bits w 31 25 = immBits 12 imm.val 11 5 ∧ bits w 11 7 = immBits 12 imm.val 4 0 := by
  obtain ⟨-, -, hrs1, hrs2, himm⟩ := encodeS_fields m rs1 rs2 imm
  exact ⟨by rw [bits_rs1, hrs1], by rw [bits_rs2, hrs2], immBits_of_layoutS himm⟩

theorem bits_encodeB (imm : ImmB) :
    let w := encodeB m rs1 rs2 imm
    bits w 19 15 = rs1.toNat ∧ bits w 24 20 = rs2.toNat ∧
      bits w 31 31 = immBits 13 imm.val 12 12 ∧ bits w 30 25 = immBits 13 imm.val 10 5 ∧
      bits w 11 8 = immBits 13 imm.val 4 1 ∧ bits w 7 7 = immBits 13 imm.val 11 11 := by
  obtain ⟨-, -, hrs1, hrs2⟩ := encodeB_fields m rs1 rs2 imm
  exact ⟨by rw [bits_rs1, hrs1], by rw [bits_rs2, hrs2],
    immBits_of_layoutB (encodeB_imm m rs1 rs2 imm)⟩

theorem bits_encodeJ (imm : ImmJ) :
    let w := encodeJ m rd imm
    bits w 11 7 = rd.toNat ∧ bits w 31 31 = immBits 21 imm.val 20 20 ∧
      bits w 30 21 = immBits 21 imm.val 10 1 ∧ bits w 20 20 = immBits 21 imm.val 11 11 ∧
      bits w 19 12 = immBits 21 imm.val 19 12 := by
  obtain ⟨-, hrd⟩ := encodeJ_fields m rd imm
  exact ⟨by rw [bits_rd, hrd], immBits_of_layoutJ (encodeJ_imm m rd imm)⟩

end

/-- Settles O44: the selectors by `matchesSelectors_encode`, the fields format by format. -/
theorem encoderPlacesEveryField : Obligations.EncoderPlacesEveryField := by
  intro i
  have hmatch := matchesSelectors_encode i
  refine ⟨by rw [bits_opcode, ← opcode_of_matches hmatch], fun c hc => by
    rw [bits_funct3, ← funct3_of_matches hmatch hc], fun c hc => by
    rw [bits_funct7, ← funct7_of_matches hmatch hc], ?_⟩
  cases i
  case lui rd imm | auipc rd imm =>
    obtain ⟨hrd, himm⟩ := bits_encodeU _ rd imm
    exact ⟨hrd, congrArg Nat.cast himm⟩
  case jal => exact bits_encodeJ _ _ _
  case sb | sh | sw => exact bits_encodeS _ _ _ _
  case beq | bne | blt | bge | bltu | bgeu => exact bits_encodeB _ _ _ _
  case slli rd rs1 imm | srli rd rs1 imm | srai rd rs1 imm =>
    obtain ⟨hrd, hrs1, himm⟩ := bits_encodeI2 _ rd rs1 imm
    exact ⟨hrd, hrs1, congrArg Nat.cast himm⟩
  case add | sub | sll | slt | sltu | xor | srl | sra | or | and => exact bits_encodeR _ _ _ _
  all_goals exact bits_encodeI _ _ _ _

/-! ### Immediates as they are written (R92, R93) -/

section
variable {lit : Text} {v : Int} {width loZero : Nat} {signed : Bool}

/-- The values parseImmediate accepts once their low bits are 0 (R93). -/
def ImmInRange (width : Nat) (signed : Bool) (v : Int) : Prop :=
  if signed then -2 ^ (width - 1) ≤ v ∧ v ≤ 2 ^ (width - 1) - 1 else 0 ≤ v ∧ v < 2 ^ width

theorem parseImmediate_of_none (h : literalValue lit = none) :
    parseImmediate lit width loZero signed = .error .malformedOperands := by
  rw [parseImmediate, h]

theorem parseImmediate_of_misaligned (h : literalValue lit = some v) (hlow : v % 2 ^ loZero ≠ 0) :
    parseImmediate lit width loZero signed = .error .immediateMisaligned := by
  simp only [parseImmediate, h]
  rw [if_pos hlow]

theorem parseImmediate_of_aligned (h : literalValue lit = some v) (hlow : v % 2 ^ loZero = 0) :
    (ImmInRange width signed v → parseImmediate lit width loZero signed = .ok v) ∧
    (¬ImmInRange width signed v →
      parseImmediate lit width loZero signed = .error .immediateOutOfRange) := by
  simp only [parseImmediate, h, ImmInRange]
  rw [if_neg (not_not.2 hlow)]
  cases signed with
  | false => constructor <;> intro hrange <;> simp at hrange ⊢ <;> omega
  | true => constructor <;> intro hrange <;> simp at hrange ⊢ <;> omega

end

/-- Settles O46: one lemma for each of parseImmediate's checks, in their order. -/
theorem parseImmediateOutcomes : Obligations.ParseImmediateOutcomes := fun _ _ _ _ =>
  ⟨parseImmediate_of_none, fun _ h hlow => parseImmediate_of_misaligned h hlow,
    fun _ h hlow => parseImmediate_of_aligned h hlow⟩

/-! ### Structured instructions and records of field values (R66) -/

/-- The check of a record agrees with the sets of R66. -/
theorem wellFormed_iff_immInSet (format : Format) (f : Fields) :
    f.WellFormed format ↔ ImmInSet format f.imm := by
  cases format
  case r => exact iff_of_true rfl trivial
  case u =>
    simp only [Fields.WellFormed, Fields.wellFormed, decide_eq_true_eq, ImmInSet]
    constructor
    · rintro ⟨hnonneg, hle, hmod⟩
      exact ⟨f.imm / 4096, by omega, by omega, by omega⟩
    · rintro ⟨k, hk, hk', himm⟩
      omega
  case i2 =>
    simp only [Fields.WellFormed, Fields.wellFormed, decide_eq_true_eq, ImmInSet]
    omega
  all_goals exact decide_eq_true_iff

/-- A record is a structured instruction exactly when its check passes (R66). -/
theorem isSome_instrOf (m : Mnemonic) (f : Fields) :
    (instrOf m f).isSome = true ↔ f.WellFormed (specFor m).format := by
  cases m
  case lui | auipc =>
    rw [instrOf, Option.isSome_map, ImmU.isSome_ofInt?]; exact decide_eq_true_iff.symm
  case jal => rw [instrOf, Option.isSome_map, ImmJ.isSome_ofInt?]; exact decide_eq_true_iff.symm
  case beq | bne | blt | bge | bltu | bgeu =>
    rw [instrOf, Option.isSome_map, ImmB.isSome_ofInt?]; exact decide_eq_true_iff.symm
  case slli | srli | srai =>
    rw [instrOf, Option.isSome_map, Shamt.isSome_ofInt?]; exact decide_eq_true_iff.symm
  case add | sub | sll | slt | sltu | xor | srl | sra | or | and => exact iff_of_true rfl rfl
  all_goals rw [instrOf, Option.isSome_map, ImmI.isSome_ofInt?]; exact decide_eq_true_iff.symm

/-- Every instruction is that of its own record. -/
theorem instrOf_fields (i : Instr) : instrOf i.mnemonic i.fields = some i := by
  cases i <;> simp [instrOf, Instr.mnemonic, Instr.fields]

/-- The instruction of a record has its mnemonic and carries the fields of its format. -/
theorem sameFields_of_instrOf {m : Mnemonic} {f : Fields} {i : Instr} (h : instrOf m f = some i) :
    i.mnemonic = m ∧ SameFields (specFor m).format i.fields f := by
  cases m
  case lui | auipc =>
    obtain ⟨imm, himm, rfl⟩ := Option.map_eq_some_iff.1 h
    exact ⟨rfl, rfl, ImmU.val_of_ofInt? himm⟩
  case jal =>
    obtain ⟨imm, himm, rfl⟩ := Option.map_eq_some_iff.1 h
    exact ⟨rfl, rfl, ImmJ.val_of_ofInt? himm⟩
  case beq | bne | blt | bge | bltu | bgeu =>
    obtain ⟨imm, himm, rfl⟩ := Option.map_eq_some_iff.1 h
    exact ⟨rfl, rfl, rfl, ImmB.val_of_ofInt? himm⟩
  case slli | srli | srai =>
    obtain ⟨imm, himm, rfl⟩ := Option.map_eq_some_iff.1 h
    exact ⟨rfl, rfl, rfl, Shamt.val_of_ofInt? himm⟩
  case add | sub | sll | slt | sltu | xor | srl | sra | or | and =>
    obtain rfl := Option.some.inj h
    exact ⟨rfl, rfl, rfl, rfl⟩
  all_goals
    obtain ⟨imm, himm, rfl⟩ := Option.map_eq_some_iff.1 h
    exact ⟨rfl, rfl, rfl, ImmI.val_of_ofInt? himm⟩

/-- Settles O54: the check by `wellFormed_iff_immInSet`, the instructions by `isSome_instrOf`. -/
theorem instrHoldsExactlyTheValidRecords : Obligations.InstrHoldsExactlyTheValidRecords := by
  refine ⟨fun m f => ⟨wellFormed_iff_immInSet _ f, ?_, fun i => sameFields_of_instrOf⟩,
    instrOf_fields, fun r => Nat.le_of_lt_succ r.isLt⟩
  rw [← Option.isSome_iff_exists, isSome_instrOf, wellFormed_iff_immInSet]

/-! ### Canonical text (R98 to R102) -/

theorem literalValue_magnitude {t : Text} {n : Nat} (h : magnitude t = some n)
    (hsign : t.head? ≠ some '-' ∧ t.head? ≠ some '+') : literalValue t = some (n : Int) := by
  cases t with
  | nil => simp [magnitude, number] at h
  | cons c rest =>
    simp only [List.head?_cons, ne_eq, Option.some.injEq] at hsign
    rw [literalValue, if_neg hsign.1, if_neg hsign.2, h]
    rfl

/-- A magnitude as `numberText` prints it, without its sign (R100). -/
def magnitudeText (n : Nat) : Text :=
  if n < 1000 then digits 10 false n else '0' :: 'x' :: digits 16 false n

theorem numberText_eq (v : Int) :
    numberText v = (if v < 0 then ['-'] else []) ++ magnitudeText v.natAbs := rfl

theorem magnitude_magnitudeText (n : Nat) : magnitude (magnitudeText n) = some n := by
  unfold magnitudeText
  split
  · exact magnitude_decimal n
  · exact magnitude_hexadecimal n

/-- A printed magnitude begins with a digit, so with no sign. -/
theorem head?_magnitudeText (n : Nat) :
    (magnitudeText n).head? ≠ some '-' ∧ (magnitudeText n).head? ≠ some '+' := by
  unfold magnitudeText
  split
  · have hdigit : ∀ c, (digits 10 false n).head? = some c → ∃ d < 10, c = digitChar false d :=
      fun c hc => mem_digits (by decide) (List.mem_of_head? hc)
    constructor
    all_goals
      intro hc
      obtain ⟨d, hd, e⟩ := hdigit _ hc
      interval_cases d <;> exact absurd e (by decide)
  · simp

/-- A printed number reads back as itself (R92, R100). -/
theorem literalValue_numberText (v : Int) : literalValue (numberText v) = some v := by
  rw [numberText_eq]
  split
  case isTrue hneg =>
    rw [List.singleton_append, literalValue, if_pos rfl, magnitude_magnitudeText]
    exact congrArg some (show -(v.natAbs : Int) = v by omega)
  case isFalse hpos =>
    rw [List.nil_append, literalValue_magnitude (magnitude_magnitudeText _) (head?_magnitudeText _)]
    exact congrArg some (Int.natAbs_of_nonneg (Int.not_lt.1 hpos))

/-- A text of plain characters has no white space to trim. -/
theorem trim_of_plainChar {t : Text} (h : ∀ c ∈ t, plainChar c = true) : trim t = t :=
  trim_of_tight (tight_of_all fun c hc => isSpace_of_plainChar (h c hc))

theorem toLower_digitChar {d : Nat} (h : d < 10) :
    (digitChar false d).toLower = digitChar false d := by
  interval_cases d <;> rfl

/-- A printed register name is in lower case already. -/
theorem lower_regText (i : RegIdx) : lower (regText i) = regText i := by
  refine (List.map_congr_left fun c hc => ?_).trans (List.map_id _)
  rcases List.mem_cons.1 hc with rfl | hdigits
  · rfl
  · obtain ⟨d, hd, rfl⟩ := mem_digits (by decide) hdigits
    exact toLower_digitChar hd

/-- A register's printed name names it (R90, R99). -/
theorem parseRegister_regText (i : RegIdx) : parseRegister (regText i) = .ok i := by
  have hnumber : number 10 decDigit (digits 10 false i.toNat) = some i.toNat :=
    number_digits (by decide) (fun _ hd => decDigit_digitChar false hd) _
  have hreg : positionalReg (regText i) = some i := by
    have := i.isLt
    simp only [regText, positionalReg, hnumber]
    rw [if_pos trivial, if_pos (by omega), BitVec.ofNat_toNat, BitVec.setWidth_eq]
  simp only [parseRegister, trim_of_plainChar (plainChar_regText i), lower_regText, hreg]

/-- A valid immediate but U's reads back from its number (R95). -/
theorem parseFormatImm_numberText {format : Format} {v : Int} (hr : format ≠ .r) (hu : format ≠ .u)
    (h : ImmInSet format v) : parseFormatImm format (numberText v) = .ok v := by
  cases format
  case r => exact absurd rfl hr
  case u => exact absurd rfl hu
  all_goals
    simp only [ImmInSet] at h
    exact (parseImmediate_of_aligned (literalValue_numberText v) (by omega)).1
      (by simp [ImmInRange]; omega)

/-- The U immediate reads back from the number of its multiple of 4096 (R95). -/
theorem parseFormatImm_u {v : Int} (h : ImmInSet .u v) :
    parseFormatImm .u (numberText (v / 4096)) = .ok v := by
  obtain ⟨k, hk, hk', rfl⟩ := h
  have hparse : parseImmediate (numberText k) 20 0 false = .ok k :=
    (parseImmediate_of_aligned (literalValue_numberText k) (Int.emod_one k)).1 ⟨hk, by omega⟩
  rw [Int.mul_ediv_cancel _ (by decide), parseFormatImm, hparse]
  rfl

/-! #### The operand grammar (R95, R101) -/

section
variable {format : Format} {rd rs1 rs2 : RegIdx} {v : Int} {lit : Text}

theorem parseRegRegReg_texts : parseRegRegReg [regText rd, regText rs1, regText rs2] =
    .ok { rd := rd, rs1 := rs1, rs2 := rs2 } := by
  simp only [parseRegRegReg, parseRegister_regText]
  rfl

section
variable (h : parseFormatImm format lit = .ok v)
include h

theorem parseRegRegImm_texts : parseRegRegImm format [regText rd, regText rs1, lit] =
    .ok { rd := rd, rs1 := rs1, imm := v } := by
  simp only [parseRegRegImm, parseRegister_regText, h]
  rfl

theorem parseBranchOps_texts : parseBranchOps format [regText rs1, regText rs2, lit] =
    .ok { rs1 := rs1, rs2 := rs2, imm := v } := by
  simp only [parseBranchOps, parseRegister_regText, h]
  rfl

theorem parseRegImm_texts : parseRegImm format [regText rd, lit] =
    .ok { rd := rd, imm := v } := by
  simp only [parseRegImm, parseRegister_regText, h]
  rfl

end

section
variable (h : parseFormatImm format (numberText v) = .ok v)
include h

theorem parseMemoryForm_memText : parseMemoryForm format (memText v rs1) = .ok (v, rs1) := by
  simp only [parseMemoryForm, splitMemoryForm_memText, trim_of_plainChar (plainChar_numberText v),
    h, parseRegister_regText]
  rfl

theorem parseRegMem_texts : parseRegMem format [regText rd, memText v rs1] =
    .ok { rd := rd, rs1 := rs1, imm := v } := by
  simp only [parseRegMem, parseRegister_regText, parseMemoryForm_memText h]
  rfl

theorem parseStoreOps_texts : parseStoreOps format [regText rs2, memText v rs1] =
    .ok { rs1 := rs1, rs2 := rs2, imm := v } := by
  simp only [parseStoreOps, parseRegister_regText, parseMemoryForm_memText h]
  rfl

end

end

/-- An instruction's immediate lies in the set of its format (R66). -/
theorem immInSet_fields (i : Instr) : ImmInSet (specFor i.mnemonic).format i.fields.imm := by
  rw [← wellFormed_iff_immInSet, ← isSome_instrOf, instrOf_fields]
  rfl

/-- The operands of an instruction parse back to its fields. -/
theorem parseOperands_operandTexts (i : Instr) :
    parseOperands i.mnemonic (operandTexts i.mnemonic i.fields) = .ok i.fields := by
  have himm := immInSet_fields i
  cases i
  case lui | auipc => exact parseRegImm_texts (parseFormatImm_u himm)
  case jal => exact parseRegImm_texts (parseFormatImm_numberText (by decide) (by decide) himm)
  case beq | bne | blt | bge | bltu | bgeu =>
    exact parseBranchOps_texts (parseFormatImm_numberText (by decide) (by decide) himm)
  case jalr | lb | lh | lw | lbu | lhu =>
    exact parseRegMem_texts (parseFormatImm_numberText (by decide) (by decide) himm)
  case sb | sh | sw =>
    exact parseStoreOps_texts (parseFormatImm_numberText (by decide) (by decide) himm)
  case add | sub | sll | slt | sltu | xor | srl | sra | or | and => exact parseRegRegReg_texts
  all_goals exact parseRegRegImm_texts (parseFormatImm_numberText (by decide) (by decide) himm)

/-! #### The line (R94, R98) -/

/-- A character of a printed operand: a plain one or a parenthesis. -/
def operandChar (c : Char) : Bool := plainChar c || c == '(' || c == ')'

theorem operandChar_of_plainChar {c : Char} (h : plainChar c = true) : operandChar c = true := by
  simp [operandChar, h]

theorem operandChar_spec {c : Char} (h : operandChar c = true) :
    isSpace c = false ∧ c ≠ ',' ∧ c ≠ ';' ∧ c ≠ '#' ∧ c ≠ '/' := by
  simp only [operandChar, Bool.or_eq_true, beq_iff_eq] at h
  obtain (hplain | rfl) | rfl := h
  · refine ⟨isSpace_of_plainChar hplain, ?_, ?_, ?_, ?_⟩ <;> rintro rfl <;>
      exact absurd hplain (by decide)
  · decide
  · decide

/-- A text as an operand is printed: of operand characters, at least one. -/
def PrintedOperand (t : Text) : Prop := t ≠ [] ∧ ∀ c ∈ t, operandChar c = true

theorem printedOperand_regText (i : RegIdx) : PrintedOperand (regText i) :=
  ⟨regText_ne_nil i, fun c hc => operandChar_of_plainChar (plainChar_regText i c hc)⟩

theorem printedOperand_numberText (v : Int) : PrintedOperand (numberText v) :=
  ⟨numberText_ne_nil v, fun c hc => operandChar_of_plainChar (plainChar_numberText v c hc)⟩

theorem printedOperand_memText (v : Int) (i : RegIdx) : PrintedOperand (memText v i) := by
  obtain ⟨-, hnumber⟩ := printedOperand_numberText v
  obtain ⟨-, hreg⟩ := printedOperand_regText i
  refine ⟨by simp [memText], fun c hc => ?_⟩
  simp only [memText, List.mem_append, List.mem_cons, List.not_mem_nil, or_false] at hc
  obtain (hc | rfl | hc) | rfl := hc
  exacts [hnumber c hc, rfl, hreg c hc, rfl]

/-- Every format has operands, and all are printed ones. -/
theorem operandTexts_spec (m : Mnemonic) (f : Fields) :
    operandTexts m f ≠ [] ∧ ∀ t ∈ operandTexts m f, PrintedOperand t := by
  unfold operandTexts
  split
  case h_2 =>
    split <;> simp [printedOperand_regText, printedOperand_numberText, printedOperand_memText]
  all_goals simp [printedOperand_regText, printedOperand_numberText, printedOperand_memText]

theorem PrintedOperand.operandText {t : Text} (h : PrintedOperand t) : OperandText t := by
  obtain ⟨hne, hchars⟩ := h
  refine ⟨tight_of_all fun c hc => ?_, fun c hc => ?_, hne⟩
  · exact (operandChar_spec (hchars c hc)).1
  · exact (operandChar_spec (hchars c hc)).2.1

/-- A text that begins and ends with tight texts is tight. -/
theorem tight_append {s u t : Text} (hs : Tight s) (hs' : s ≠ []) (ht : Tight t) (ht' : t ≠ []) :
    Tight (s ++ u ++ t) := by
  constructor
  · intro c rest h
    obtain ⟨a, s, rfl⟩ := List.exists_cons_of_ne_nil hs'
    cases h
    exact hs.1 _ _ rfl
  · intro c rest h
    obtain ⟨a, r, hr⟩ := List.exists_cons_of_ne_nil (mt List.reverse_eq_nil_iff.1 ht')
    rw [List.reverse_append, hr] at h
    cases h
    exact ht.2 _ _ hr

theorem commaJoin_ne_nil {ops : List Text} (hne : ops ≠ []) (h : ∀ t ∈ ops, PrintedOperand t) :
    commaJoin ops ≠ [] := by
  match ops with
  | [p] => exact (h p (by simp)).1
  | p :: q :: rest => simp [commaJoin]

theorem tight_commaJoin {ops : List Text} (hne : ops ≠ []) (h : ∀ t ∈ ops, PrintedOperand t) :
    Tight (commaJoin ops) := by
  induction ops with
  | nil => exact absurd rfl hne
  | cons p rest ih =>
    obtain ⟨hp, hrest⟩ := List.forall_mem_cons.1 h
    cases rest with
    | nil => exact hp.operandText.1
    | cons q rest =>
      simpa [commaJoin] using tight_append (u := [',', ' ']) hp.operandText.1 hp.1
        (ih (by simp) hrest) (commaJoin_ne_nil (by simp) hrest)

theorem mem_commaJoin {ops : List Text} (h : ∀ t ∈ ops, PrintedOperand t) :
    ∀ c ∈ commaJoin ops, operandChar c = true ∨ c = ',' ∨ c = ' ' := by
  induction ops with
  | nil => simp [commaJoin]
  | cons p rest ih =>
    obtain ⟨hp, hrest⟩ := List.forall_mem_cons.1 h
    cases rest with
    | nil => exact fun c hc => .inl (hp.2 c hc)
    | cons q rest =>
      intro c hc
      simp only [commaJoin, List.mem_append, List.mem_cons] at hc
      obtain hc | rfl | rfl | hc := hc
      exacts [.inl (hp.2 c hc), .inr (.inl rfl), .inr (.inr rfl), ih hrest c hc]

/-- The line of an instruction: its mnemonic, at least one space, its operands (R98, C3). -/
theorem encodeText_eq (i : Instr) : ∃ n, encodeText i =
    i.mnemonic.name ++ List.replicate (n + 1) ' ' ++
      commaJoin (operandTexts i.mnemonic i.fields) := by
  obtain ⟨-, -, hlength, -⟩ := i.mnemonic.name_spec
  refine ⟨mnemonicColumn - i.mnemonic.name.length - 1, ?_⟩
  rw [Nat.sub_add_cancel (Nat.sub_pos_of_lt hlength)]
  rfl

/-- A canonical line has no comment. -/
theorem stripComment_encodeText (i : Instr) : stripComment (encodeText i) = encodeText i := by
  obtain ⟨hname, -, -, -⟩ := i.mnemonic.name_spec
  obtain ⟨-, hops⟩ := operandTexts_spec i.mnemonic i.fields
  obtain ⟨n, hline⟩ := encodeText_eq i
  refine stripComment_eq_self fun c hc => ?_
  have hchar : operandChar c = true ∨ c = ',' ∨ c = ' ' := by
    rw [hline] at hc
    simp only [List.mem_append] at hc
    obtain (hc | hc) | hc := hc
    exacts [.inl (operandChar_of_plainChar (hname c hc)), .inr (.inr (List.eq_of_mem_replicate hc)),
      mem_commaJoin hops c hc]
  obtain hc | rfl | rfl := hchar
  · exact (operandChar_spec hc).2.2
  · decide
  · decide

/-- A canonical line neither begins nor ends with white space. -/
theorem trim_encodeText (i : Instr) : trim (encodeText i) = encodeText i := by
  obtain ⟨hname, hne, -, -⟩ := i.mnemonic.name_spec
  obtain ⟨hops, hprinted⟩ := operandTexts_spec i.mnemonic i.fields
  obtain ⟨n, hline⟩ := encodeText_eq i
  rw [hline]
  exact trim_of_tight (tight_append (tight_of_all fun c hc => isSpace_of_plainChar (hname c hc)) hne
    (tight_commaJoin hops hprinted) (commaJoin_ne_nil hops hprinted))

/-- A canonical line comes apart, at its first white space, into the mnemonic and the operands. -/
theorem encodeText_parts (i : Instr) :
    (encodeText i).takeWhile (fun c => !isSpace c) = i.mnemonic.name ∧
    (splitCommas ((encodeText i).dropWhile fun c => !isSpace c)).map trim =
      operandTexts i.mnemonic i.fields := by
  obtain ⟨hname, -, -, -⟩ := i.mnemonic.name_spec
  obtain ⟨hops, hprinted⟩ := operandTexts_spec i.mnemonic i.fields
  obtain ⟨n, hline⟩ := encodeText_eq i
  have hword : ∀ c ∈ i.mnemonic.name, (!isSpace c) = true := fun c hc => by
    rw [isSpace_of_plainChar (hname c hc)]
    rfl
  rw [hline, List.append_assoc, List.takeWhile_append_of_pos hword,
    List.dropWhile_append_of_pos hword]
  have hspace : (!isSpace ' ') = false := rfl
  constructor
  · simp [List.replicate_succ, hspace]
  · rw [List.replicate_succ, List.cons_append, List.dropWhile_cons_of_neg (by simp [hspace]),
      ← List.cons_append, ← List.replicate_succ, pieces_spaces,
      pieces_commaJoin hops fun t ht => (hprinted t ht).operandText]

/-- Settles O49: a canonical line comes apart into its mnemonic and its operands, the operands parse
back to the fields, and the fields are the instruction's. -/
theorem decodeTextOfEncodeText : Obligations.DecodeTextOfEncodeText := by
  intro i
  obtain ⟨hmnemonic, hoperands⟩ := encodeText_parts i
  obtain ⟨-, -, -, hspec⟩ := i.mnemonic.name_spec
  have hstructured : structured i.mnemonic i.fields = .ok i := by rw [structured, instrOf_fields]
  simp only [decodeText, stripComment_encodeText, trim_encodeText, hmnemonic, hoperands, hspec, bind,
    Except.bind, parseOperands_operandTexts, hstructured]

/-! ### Displayed words read back (R103, R104) -/

theorem digitChar_not_blank {d : Nat} (h : d < 16) :
    (!isSpace (digitChar true d) && digitChar true d != '_') = true := by
  interval_cases d <;> rfl

/-- The eight digits of a displayed word, without the spaces between its bytes. -/
theorem cleanHexLine_displayWord (w : Word) : cleanHexLine (displayWord w) =
    hexByte (byteOf w 0) ++ hexByte (byteOf w 1) ++ hexByte (byteOf w 2) ++
      hexByte (byteOf w 3) := by
  have hbyte (b : Byte) : (hexByte b).filter (fun ch => !isSpace ch && ch != '_') = hexByte b := by
    have := b.isLt
    refine List.filter_eq_self.2 fun c hc => ?_
    simp only [hexByte, List.mem_cons, List.not_mem_nil, or_false] at hc
    obtain rfl | rfl := hc
    · exact digitChar_not_blank (by omega)
    · exact digitChar_not_blank (by omega)
  have hspace : isSpace ' ' = true := rfl
  simp [cleanHexLine, displayWord, hbyte, hspace]

theorem ofNat_hexDigits (b : Byte) :
    BitVec.ofNat 8 (b.toNat / 16 * 16 + b.toNat % 16) = b := by
  rw [Nat.div_add_mod', BitVec.ofNat_toNat, BitVec.setWidth_eq]

/-- A displayed word reads back as itself (R42, R103, R104). -/
theorem parseHexLine_displayWord (w : Word) :
    parseHexLine (cleanHexLine (displayWord w)) = .ok w := by
  have hhigh (b : Byte) : hexDigit (digitChar true (b.toNat / 16)) = some (b.toNat / 16) :=
    hexDigit_digitChar true (by have := b.isLt; omega)
  have hlow (b : Byte) : hexDigit (digitChar true (b.toNat % 16)) = some (b.toNat % 16) :=
    hexDigit_digitChar true (by omega)
  rw [cleanHexLine_displayWord]
  simp [parseHexLine, hexByte, hhigh, hlow, ofNat_hexDigits, wordOfBytes_byteOf]

theorem disassembleText_displayWord (fmt : AddrLabelFormat) (w : Word) :
    disassembleText fmt [displayWord w] =
      [addrLabel fmt 0 ++ disassembleBody (cleanHexLine (displayWord w))] := by
  have hne : (cleanHexLine (displayWord w)).isEmpty = false := by
    rw [cleanHexLine_displayWord]
    rfl
  simp [disassembleText, disassembleFrom, hne]

/-- A word that does not decode disassembles to ERROR (R104, R105). -/
theorem disassembleText_of_illegal (fmt : AddrLabelFormat) {w : Word} {k : FaultKind}
    (h : decodeBinary w = .error k) :
    disassembleText fmt [displayWord w] = [addrLabel fmt 0 ++ errorLine] := by
  rw [disassembleText_displayWord, disassembleBody, disassembleWord, parseHexLine_displayWord]
  simp only [h]

/-! ### Illegal words -/

/-- The nine opcodes in use end in 11, and neither 0001111 nor 1110011 is one (R79, R85). -/
theorem unusedSelectors_of_opcode {op : BitVec 7} {f3 : BitVec 3} {f7 : BitVec 7}
    (h : op.toNat % 4 ≠ 3 ∨ op.toNat = 0b0001111 ∨ op.toNat = 0b1110011) :
    UnusedSelectors op f3 f7 := by
  left
  intro hop
  simp only [List.mem_cons, List.not_mem_nil, or_false] at hop
  rcases hop with rfl | rfl | rfl | rfl | rfl | rfl | rfl | rfl | rfl <;> revert h <;> decide

/-- The word 0 has unused selectors: opcode 0 (R86). -/
theorem unusedSelectors_zero :
    UnusedSelectors (opcodeOf 0#32) (funct3Of 0#32) (funct7Of 0#32) :=
  unusedSelectors_of_opcode (.inl (by decide))

/-- The step of a Running machine at a word that does not decode, other than the halt word. -/
theorem Machine.step_of_illegal_word {s : Machine.State} {w : Word} {k : FaultKind}
    (hs : s.status = .running) (hf : s.iFetch = .ok w) (hw : w ≠ 0#32)
    (h : decodeBinary w = .error k) : Machine.step s = .next (s.failRun k) := by
  rw [Machine.step_of_word hs hf hw, Machine.decodeAndExec, h]

/-- Settles O42: what is illegal by `decodeBinary_ne_ok_iff`, what follows by the failed decode. -/
theorem illegalWordsEndTheRun : Obligations.IllegalWordsEndTheRun := by
  refine ⟨fun w hunused => ?_, fun w => decodeBinary_ne_ok_iff, fun w h => ?_⟩
  · have hdecode := decodeBinary_of_unused hunused
    exact ⟨fun s hs hf hw => Machine.step_of_illegal_word hs hf hw hdecode,
      fun fmt => disassembleText_of_illegal fmt hdecode⟩
  · rw [decodeBinary_ne_ok_iff]
    refine unusedSelectors_of_opcode ?_
    rw [bits_opcode] at h
    have : bits w 1 0 = (opcodeOf w).toNat % 4 := by
      rw [← bits_opcode]
      unfold bits
      omega
    rwa [← this]

/-- Settles O29: the halt test comes before the decoder, for which word 0 has unused selectors. -/
theorem allZeroWordHalts : Obligations.AllZeroWordHalts := by
  have hdecode := decodeBinary_of_unused unusedSelectors_zero
  refine ⟨fun s hs hf => Machine.step_of_halt_word hs hf, hdecode, fun i hi => ?_, ?_⟩
  · have hdecode' := decodeOfEncode i
    rw [encodeBinary, hi, hdecode] at hdecode'
    cases hdecode'
  · exact disassembleText_of_illegal _ hdecode

end Sys2Proof

/-! ## The family of the ALU: the 19 arithmetic and logic instructions (spec/40_alu.md) -/

namespace Sys2Proof.Machine

open Claims

/-! ### The operations over integers (R106) -/

theorem alu_add (a b : Word) : alu .add a b = u32 ((a.toNat : Int) + b.toNat) := by
  rw [u32_word_add, u32_toNat, alu]

theorem alu_sub (a b : Word) : alu .sub a b = u32 ((a.toNat : Int) - b.toNat) :=
  sub_eq_of_eq_add' (by rw [← u32_word_add, add_sub_cancel, u32_toNat])

/-- Settles O2: each clause is the operation's own rule, read as a number. -/
theorem aluTableOverIntegers : Obligations.AluTableOverIntegers := by
  intro a b
  refine ⟨BitVec.toNat_add a b, ?_, fun k => BitVec.getLsbD_and, fun k => BitVec.getLsbD_or,
    fun k => ?_, ?_, ?_, ?_, ?_, ?_⟩
  · rw [alu_sub, toNat_u32]
  · exact BitVec.getLsbD_xor
  · rw [alu_slt, apply_ite BitVec.toNat]; rfl
  · rw [alu_sltu, apply_ite BitVec.toNat]; rfl
  · rw [alu, shiftAmount, BitVec.toNat_shiftLeft, Nat.shiftLeft_eq]
  · rw [alu, shiftAmount, BitVec.toNat_ushiftRight, Nat.shiftRight_eq_div_pow]
  · rw [alu_sra, toNat_u32]

/-! ### Shift amounts (R108) -/

section
variable {op : AluOp} {a b c : Word}

theorem eq_of_mem_shifts (hop : op ∈ [AluOp.sll, .srl, .sra]) :
    op = .sll ∨ op = .srl ∨ op = .sra := by
  simpa using hop

/-- A shift depends on its second operand only through the shift amount. -/
theorem alu_shift_congr (hop : op ∈ [AluOp.sll, .srl, .sra]) (h : shiftAmount b = shiftAmount c) :
    alu op a b = alu op a c := by
  obtain rfl | rfl | rfl := eq_of_mem_shifts hop <;> simp only [alu, h]

theorem alu_shift_zero (hop : op ∈ [AluOp.sll, .srl, .sra]) : alu op a 0#32 = a := by
  obtain rfl | rfl | rfl := eq_of_mem_shifts hop <;> simp [alu, shiftAmount]

end

/-- An immediate shift's amount is its second operand's low 5 bits (R108, R109). -/
theorem toNat_u32_shamt (imm : Shamt) : (u32 imm.val).toNat % 32 = imm.val := shiftAmount_u32 imm.2

/-! ### The two operand forms (R110) -/

section
variable {i : Instr} {s : State} {rd : RegIdx} {v : Word}

/-- An instruction that writes a result and goes on does only that. -/
theorem executes_of_finish (h : exec i s = .next (s.finish rd v)) :
    Executes i s rd v (s.pc + 4) := by
  obtain ⟨hpc, hrd, hother, hmem, himem, hstatus, hconfig⟩ := s.finish_spec rd v
  refine ⟨_, h, hpc, hrd, State.readReg_zero _, hother, fun a => ?_, hmem, himem, hstatus, hconfig⟩
  rw [State.readByte, hmem, State.readByte]

theorem executes_of_aluImmForm {op : AluOp} {rs1 : RegIdx} {imm : Int}
    (h : exec i s = aluImmForm op rd rs1 imm s) :
    Executes i s rd (alu op (s.readReg rs1) (u32 imm)) (s.pc + 4) :=
  executes_of_finish h

end

/-- The register-register instructions are the operand form of their operation. -/
theorem exec_regRegInstr (op : AluOp) (rd rs1 rs2 : RegIdx) (s : State) :
    exec (regRegInstr op rd rs1 rs2) s = aluRegForm op rd rs1 rs2 s := by
  cases op <;> rfl

/-- Settles O4: every instruction is an operand form, and `executes_of_finish` says what those
do. -/
theorem aluInstructionsWriteAluResult : Obligations.AluInstructionsWriteAluResult := by
  refine ⟨fun op rd rs1 rs2 s => executes_of_finish (exec_regRegInstr op rd rs1 rs2 s),
    fun rd rs1 imm s => ⟨?_, ?_, ?_, ?_, ?_, ?_⟩, fun rd rs1 imm s => ⟨?_, ?_, ?_⟩⟩
  all_goals exact executes_of_aluImmForm rfl

/-- Settles O3: the register forms by the amount they mask, the immediate forms by the ALU's result
on the amount they decode. -/
theorem shiftAmountsAreMasked : Obligations.ShiftAmountsAreMasked := by
  refine ⟨fun op hop a b c => ⟨alu_shift_congr hop, alu_shift_zero hop, ?_, ?_⟩,
    fun rd rs1 imm s => ?_⟩
  · rw [alu_shift_congr hop (show shiftAmount 32#32 = shiftAmount 0#32 by decide),
      alu_shift_zero hop]
  · exact alu_shift_congr hop (by decide)
  · obtain ⟨-, -, hshift⟩ := aluInstructionsWriteAluResult
    simpa only [alu, shiftAmount, toNat_u32_shamt] using hshift rd rs1 imm s

/-! ### Results of the register-register instructions -/

/-- Settles O5: the ALU's results of O4, each over integers. -/
theorem regRegInstructionResults : Obligations.RegRegInstructionResults := by
  intro rd rs1 rs2 s a b
  obtain ⟨hreg, -, -⟩ := aluInstructionsWriteAluResult
  have hexec (op : AluOp) {v : Word} (hv : alu op a b = v) :
      Executes (regRegInstr op rd rs1 rs2) s rd v (s.pc + 4) := hv ▸ hreg op rd rs1 rs2 s
  exact ⟨⟨rfl, by decide, hexec .add (alu_add a b)⟩,
    ⟨rfl, by decide, hexec .sub (alu_sub a b)⟩,
    ⟨rfl, by decide, hexec .and rfl⟩,
    ⟨rfl, by decide, hexec .or rfl⟩,
    ⟨rfl, by decide, hexec .xor rfl⟩,
    ⟨rfl, by decide, hexec .slt (alu_slt a b)⟩,
    ⟨rfl, by decide, hexec .sltu (alu_sltu a b)⟩,
    ⟨rfl, by decide, hexec .sll (alu_sll a b)⟩,
    ⟨rfl, by decide, hexec .srl (alu_srl a b)⟩,
    ⟨rfl, by decide, hexec .sra (alu_sra a b)⟩⟩

/-! ### Results of the immediate forms -/

section
variable (a : Word)

/-- A 12-bit immediate compares as the signed number it is (R123). -/
theorem alu_slt_immI (imm : ImmI) :
    alu .slt a (u32 imm.val) = if s32 a < imm.val then 1#32 else 0#32 := by
  obtain ⟨hlow, hhigh⟩ := imm.2
  rw [alu_slt, s32_u32 (by omega) (by omega)]

/-- SLTIU compares with the unsigned value of the sign-extended immediate (R109, R124). -/
theorem alu_sltu_u32 (v : Int) :
    alu .sltu a (u32 v) = if (a.toNat : Int) < v % 2 ^ 32 then 1#32 else 0#32 := by
  simp only [alu_sltu, ← toNat_u32, Nat.cast_lt]

end

/-- Bit 25 is bit 0 of funct7, which is 0 in SLLI's row (R128). -/
theorem unusedSelectors_of_slli_bit25 {w : Word} (hop : opcodeOf w = 0b0010011)
    (h3 : funct3Of w = 0b001) (hbit : w.getLsbD 25 = true) :
    UnusedSelectors (opcodeOf w) (funct3Of w) (funct7Of w) := by
  have h7 : funct7Of w ≠ 0b0000000#7 := fun h => by
    have hbit0 : (funct7Of w).getLsbD 0 = w.getLsbD 25 := by simp [funct7Of]
    rw [h, hbit] at hbit0
    cases hbit0
  simp [UnusedSelectors, hop, h3, h7]

/-- A shift literal of 32 or more is out of the 5-bit unsigned range (R93, R128). -/
theorem parseFormatImm_i2_outOfRange {lit : Text} {v : Int} (h : literalValue lit = some v)
    (hv : 32 ≤ v) : parseFormatImm .i2 lit = .error .immediateOutOfRange := by
  refine (parseImmediate_of_aligned h (Int.emod_one v)).2 fun hrange => ?_
  obtain ⟨-, hlt⟩ : 0 ≤ v ∧ v < 2 ^ 5 := hrange
  omega

/-- A decoded SRAI has its amount in bits 24 to 20 and its funct7 above them (R69, R130). -/
theorem bits_of_decode_srai {w : Word} {rd rs1 : RegIdx} {imm : Shamt}
    (h : decodeBinary w = .ok (.srai rd rs1 imm)) :
    imm.val = bits w 24 20 ∧ bits w 31 25 = 0b0100000 := by
  obtain rfl := encode_of_decodeBinary h
  obtain ⟨-, -, hamount⟩ := bits_encodeI2 .srai rd rs1 imm
  obtain ⟨-, -, hfunct7, -⟩ := encoderPlacesEveryField (.srai rd rs1 imm)
  exact ⟨hamount.symm, hfunct7 _ rfl⟩

/-- Settles O6: the ALU's results of O4, each over integers, and the lemmas above for what a shift's
word and literal may hold. -/
theorem immediateInstructionResults : Obligations.ImmediateInstructionResults := by
  obtain ⟨-, himm, hshift⟩ := aluInstructionsWriteAluResult
  constructor
  · intro rd rs1 imm s a
    obtain ⟨haddi, hslti, hsltiu, hxori, hori, handi⟩ := himm rd rs1 imm s
    exact ⟨⟨rfl, by decide, (u32_word_add a _).symm ▸ haddi⟩,
      ⟨rfl, by decide, alu_slt_immI a imm ▸ hslti⟩,
      ⟨rfl, by decide, alu_sltu_u32 a imm.val ▸ hsltiu⟩,
      ⟨rfl, by decide, hxori⟩, ⟨rfl, by decide, hori⟩, ⟨rfl, by decide, handi⟩⟩
  · intro rd rs1 imm s a
    have hresult := hshift rd rs1 imm s
    simp only [alu_sll, alu_srl, alu_sra, toNat_u32_shamt] at hresult
    obtain ⟨hslli, hsrli, hsrai⟩ := hresult
    exact ⟨⟨rfl, by decide, fun w hop h3 hbit =>
        decodeBinary_of_unused (unusedSelectors_of_slli_bit25 hop h3 hbit),
        fun lit v => parseFormatImm_i2_outOfRange, hslli⟩,
      ⟨rfl, by decide, hsrli⟩,
      ⟨rfl, by decide, fun w d s1 n => bits_of_decode_srai, hsrai⟩⟩

end Sys2Proof.Machine

/-! ## The family of loads and stores: the five loads and three stores (spec/41_load_store.md) -/

namespace Sys2Proof.Machine

open Claims

/-! ### The bytes of a read, put together (R38, R42) -/

section
variable (s : State) (a : Word)

theorem State.memRead_one : s.memRead a 1 = (s.readByte (s.byteAddr a 0)).toNat := by
  simp [State.memRead_succ]

theorem State.memRead_two : s.memRead a 2 =
    (s.readByte (s.byteAddr a 1) ++ s.readByte (s.byteAddr a 0)).toNat := by
  rw [State.memRead_succ, State.memRead_one, toNat_append_eq, Nat.add_comm]

theorem State.memRead_four : s.memRead a 4 =
    (s.readByte (s.byteAddr a 3) ++ s.readByte (s.byteAddr a 2) ++ s.readByte (s.byteAddr a 1) ++
      s.readByte (s.byteAddr a 0)).toNat := by
  simp only [State.memRead_succ, State.memRead_zero, toNat_append_eq]
  ring

end

/-! ### Widening (R133) -/

section
variable {n : Nat} (x : BitVec n)

theorem u32_sextN_toNat : u32 (sextN n x.toNat) = x.signExtend 32 := by
  rw [sextN_toNat]; rfl

theorem u32_ofNat_toNat : u32 (Int.ofNat x.toNat) = x.zeroExtend 32 :=
  (u32_ofNat x.toNat).trans (BitVec.ofNat_toNat 32 x)

end

/-! ### The two operand forms (R132, R133) -/

/-- The statements' effective address is the model's (R131). -/
theorem effAddr_eq_effectiveAddr (s : State) (rs1 : RegIdx) (imm : Int) :
    effAddr s rs1 imm = s.effectiveAddr rs1 imm := (s.effectiveAddr_eq rs1 imm).symm

section
variable {i : Instr} {s : State} {n : Nat} {rd rs1 rs2 : RegIdx} {imm : Int}

/-- A load whose bytes make `x` writes what `widen` makes of that number, and does only that. -/
theorem executes_of_loadForm {w : Nat} {x : BitVec w} {widen : Nat → Int} {v : Word}
    (h : exec i s = loadForm n widen rd rs1 imm s)
    (hread : s.memRead (effAddr s rs1 imm) n = x.toNat) (hwiden : u32 (widen x.toNat) = v) :
    Executes i s rd v (s.pc + 4) := by
  rw [loadForm_eq, ← effAddr_eq_effectiveAddr, hread, hwiden] at h
  exact executes_of_finish h

/-- A store of at most MEM_SIZE bytes stores them at the effective address, and does only that. -/
theorem executesStore_of_storeForm (hn : n ≤ s.config.memSize)
    (h : exec i s = storeForm n rs1 rs2 imm s) :
    ExecutesStore i s (effAddr s rs1 imm) n (s.readReg rs2) := by
  obtain ⟨hpc, hbytes, hframe⟩ := storeForm_spec (rs1 := rs1) (rs2 := rs2) (imm := imm) hn rfl
  rw [effAddr_eq_effectiveAddr]
  exact ⟨_, h, hpc, fun k hk => (hbytes k hk).trans (byteOf_eq _ k), hframe⟩

end

/-- Settles O10: every load is the operand form on its bytes put together, widened by sign or by
zeros; a whole word is its own number modulo 2^32. -/
theorem loadInstructionResults : Obligations.LoadInstructionResults := by
  intro rd rs1 imm s byte
  let ea := effAddr s rs1 imm.val
  exact ⟨⟨rfl, by decide, executes_of_loadForm rfl (s.memRead_one ea) (u32_sextN_toNat _)⟩,
    ⟨rfl, by decide, executes_of_loadForm rfl (s.memRead_two ea) (u32_sextN_toNat _)⟩,
    ⟨rfl, by decide, by decide, executes_of_loadForm rfl (s.memRead_four ea) (u32_toNat _)⟩,
    ⟨rfl, by decide, executes_of_loadForm rfl (s.memRead_one ea) (u32_ofNat_toNat _)⟩,
    ⟨rfl, by decide, executes_of_loadForm rfl (s.memRead_two ea) (u32_ofNat_toNat _)⟩⟩

/-- Settles O11: every store is the operand form of its width, which fits a memory in range. -/
theorem storeInstructionResults : Obligations.StoreInstructionResults := by
  intro rs1 rs2 imm s hv ea
  have hwidth {n : Nat} (hn : n ∈ [1, 2, 4]) : n ≤ s.config.memSize := width_le_memSize hv hn
  exact ⟨⟨rfl, by decide, executesStore_of_storeForm (hwidth (by decide)) rfl⟩,
    ⟨rfl, by decide, executesStore_of_storeForm (hwidth (by decide)) rfl⟩,
    ⟨rfl, by decide, executesStore_of_storeForm (hwidth (by decide)) rfl⟩⟩

end Sys2Proof.Machine

/-! ## The family of the upper immediates: LUI and AUIPC (spec/42_upper_immediate.md) -/

namespace Sys2Proof.Machine

open Claims

section
variable (rd : RegIdx) (imm : ImmU) (s : State)

/-- A U immediate is below 2^32, so a word holds it as it is (R64, R143). -/
theorem toNat_ofNat_immU : (BitVec.ofNat 32 imm.val).toNat = imm.val :=
  Nat.mod_eq_of_lt (imm.2.1.trans_lt (by decide))

/-- LUI writes the immediate itself (R143). -/
theorem executes_lui : Executes (.lui rd imm) s rd (BitVec.ofNat 32 imm.val) (s.pc + 4) := by
  rw [← u32_ofNat]
  exact executes_of_finish rfl

/-- AUIPC writes the sum of its own address and the immediate, modulo 2^32 (R144). -/
theorem executes_auipc :
    Executes (.auipc rd imm) s rd (u32 (s.pc.toNat + imm.val)) (s.pc + 4) := by
  rw [u32_word_add]
  exact executes_of_finish rfl

end

/-- Settles O14: what each instruction executes by the lemmas above, and the immediate's range and
multiple of 4096 by its own proof of validity. -/
theorem upperImmediateResults : Obligations.UpperImmediateResults := by
  intro rd imm s
  obtain ⟨-, hmultiple⟩ := imm.2
  exact ⟨⟨rfl, by decide, by decide, executes_lui rd imm s, toNat_ofNat_immU imm, hmultiple⟩,
    ⟨rfl, by decide, by decide, executes_auipc rd imm s⟩⟩

end Sys2Proof.Machine

/-! ## The family of the control transfers: jumps and branches (spec/43_control_transfer.md) -/

namespace Sys2Proof.Machine

open Claims

/-! ### The jumps: a link and a target (R149, R150) -/

section
variable (s : State) (rd rs1 : RegIdx)

/-- A register written and a pc selected: that and nothing else happens to the state. -/
theorem writesReg_setPc (v p : Word) : WritesReg s ((s.writeReg rd v).setPc p) rd v p := by
  refine ⟨rfl, fun hrd => ?_, State.readReg_zero _, fun j hj => ?_, ?_⟩
  · rw [State.setPc_readReg, s.readReg_writeReg_self hrd]
  · rw [State.setPc_readReg, s.readReg_writeReg_ne hj]
  · simp

/-- JAL over integers: the link is the address after it, the target pc + imm (R149). -/
theorem exec_jal (imm : ImmJ) : exec (.jal rd imm) s =
    .next ((s.writeReg rd (u32 (s.pc.toNat + 4))).setPc (u32 (s.pc.toNat + imm.val))) := by
  rw [u32_word_add_four, u32_word_add]; rfl

/-- The value of x[rs1] that JALR adds its immediate to: read after the link is written or before,
as JALR_READS_RS1_AFTER_LINK says (R150). -/
def jalrBase : Word :=
  if s.config.jalrReadsRs1AfterLink then (s.writeReg rd (u32 (s.pc.toNat + 4))).readReg rs1
  else s.readReg rs1

/-- JALR over integers: the same link, and its own base in place of pc (R150). -/
theorem exec_jalr (imm : ImmI) : exec (.jalr rd rs1 imm) s =
    .next ((s.writeReg rd (u32 (s.pc.toNat + 4))).setPc
      (u32 ((jalrBase s rd rs1).toNat + imm.val))) := by
  rw [jalrBase, u32_word_add_four, u32_word_add]; rfl

/-- The two orders differ only when rd = rs1 ≠ x0 (R150). -/
theorem jalrBase_eq : jalrBase s rd rs1 =
    if s.config.jalrReadsRs1AfterLink = true ∧ rd = rs1 ∧ rd ≠ 0#5 then u32 (s.pc.toNat + 4)
    else s.readReg rs1 := by
  simp only [jalrBase, State.readReg_writeReg, ite_and, eq_comm (a := rs1)]

end

/-- Settles O15: `exec_jal` for what JAL does, the cases of the fetch for where it may go wrong. -/
theorem jalLinksAndJumps : Obligations.JalLinksAndJumps := by
  refine ⟨rfl, by decide, by decide, fun rd imm s =>
    ⟨_, exec_jal s rd imm, writesReg_setPc s rd _ _, fun himm => ?_,
      State.iFetch_misaligned, State.iFetch_outOfRange⟩⟩
  rw [State.setPc_pc, himm, add_zero, u32_toNat]

/-- Settles O16: `exec_jalr` for what JALR does, with the base of `jalrBase_eq`, and the cases of
the fetch for where it may go wrong. -/
theorem jalrBothOrders : Obligations.JalrBothOrders := by
  refine ⟨rfl, by decide, by decide, rfl, fun rd rs1 imm s =>
    ⟨_, exec_jalr s rd rs1 imm, ?_, State.iFetch_misaligned, State.iFetch_outOfRange⟩⟩
  rw [← jalrBase_eq]
  exact writesReg_setPc s rd _ _

/-! ### The branches (R151, R152) -/

/-- A branch whose comparator computes the condition `P` goes to pc + imm where `P` holds and to
pc + 4 where it does not. -/
theorem branchForm_of_holds {c : BranchCond} {rs1 rs2 : RegIdx} {s : State} {P : Prop}
    [Decidable P] (imm : Int)
    (h : branchHolds c (s.readReg rs1) (s.readReg rs2) = decide P) :
    branchForm c rs1 rs2 imm s = .next (if P then { s with pc := u32 (s.pc.toNat + imm) }
      else { s with pc := u32 (s.pc.toNat + 4) }) := by
  rw [branchForm_spec, h]
  by_cases hP : P <;> simp [hP]

/-- Settles O17: every branch is the operand form of its comparison, which the comparator's laws
give over integers. -/
theorem branchResults : Obligations.BranchResults := by
  intro rs1 rs2 imm s a b taken untaken
  have heq : branchHolds .eq a b = decide (a = b) := by
    simp only [branchHolds_eq, BitVec.toNat_inj]
  have hne : branchHolds .ne a b = decide (a ≠ b) := by
    simp only [branchHolds_ne, ne_eq, BitVec.toNat_inj]
  exact ⟨⟨rfl, by decide, branchForm_of_holds imm.val heq⟩,
    ⟨rfl, by decide, branchForm_of_holds imm.val hne⟩,
    ⟨rfl, by decide, branchForm_of_holds imm.val (branchHolds_lt a b)⟩,
    ⟨rfl, by decide, branchForm_of_holds imm.val (branchHolds_ge a b)⟩,
    ⟨rfl, by decide, branchForm_of_holds imm.val (branchHolds_ltu a b)⟩,
    ⟨rfl, by decide, branchForm_of_holds imm.val (branchHolds_geu a b)⟩⟩

/-! ### The next pc (R145) -/

section
variable {s t : State}

/-- The pc of a branch that computes `taken`. -/
theorem pc_of_branchForm {c : BranchCond} {rs1 rs2 : RegIdx} {imm : Int} {taken : Bool}
    (hc : branchHolds c (s.readReg rs1) (s.readReg rs2) = taken)
    (h : branchForm c rs1 rs2 imm s = .next t) :
    t.pc = u32 (s.pc.toNat + if taken then imm else 4) := by
  rw [branchForm_spec, hc] at h
  cases h
  cases taken <;> rfl

/-- The pc after a state that has kept it goes on to the next instruction. -/
theorem pc_of_advance {u : State} (hu : u.pc = s.pc) (h : (.next u.advance : Result) = .next t) :
    t.pc = u32 (s.pc.toNat + 4) := by
  cases h
  rw [State.advance_eq, State.setPc_pc, hu, u32_word_add_four]

end

/-- Settles O18: the jumps by what they do, the branches by their comparator, and every other
instruction stores or writes a register and goes on. -/
theorem nextPcMultiplexer : Obligations.NextPcMultiplexer := by
  intro i s t h
  cases i
  case jal rd imm => cases (exec_jal s rd imm).symm.trans h; rfl
  case jalr rd rs1 imm => cases (exec_jalr s rd rs1 imm).symm.trans h; rfl
  case beq => exact pc_of_branchForm (branchHolds_eq _ _) h
  case bne => exact pc_of_branchForm (branchHolds_ne _ _) h
  case blt => exact pc_of_branchForm (branchHolds_lt _ _) h
  case bge => exact pc_of_branchForm (branchHolds_ge _ _) h
  case bltu => exact pc_of_branchForm (branchHolds_ltu _ _) h
  case bgeu => exact pc_of_branchForm (branchHolds_geu _ _) h
  case sb | sh | sw => exact pc_of_advance (s.memWrite_pc _ _ _) h
  all_goals exact pc_of_advance (s.writeReg_pc _ _) h

end Sys2Proof.Machine

/-! ## The family of exceptions: the outcomes of a step (spec/60_exceptions.md) -/

namespace Sys2Proof.Machine

/-- The step of a Running machine at a word that decodes, other than the halt word. -/
theorem step_of_decoded_word {s : State} {w : Word} {i : Instr} (hs : s.status = .running)
    (hf : s.iFetch = .ok w) (hw : w ≠ 0#32) (h : decodeBinary w = .ok i) : step s = exec i s := by
  rw [step_of_word hs hf hw, decodeAndExec, h]

/-- A step that ends in Faulted is a failed fetch or a failed decode: the halt word ends in Halted,
and an executed instruction stays Running (R161). -/
theorem eq_failRun_of_faulted_step {s t : State} {k : FaultKind} (h : step s = .next t)
    (hfaulted : t.status = .faulted k) : t = s.failRun k ∧
      (s.iFetch = .error k ∨ ∃ w, s.iFetch = .ok w ∧ decodeBinary w = .error k) := by
  obtain ⟨hrunning, ⟨k', hfail, rfl⟩ | ⟨-, rfl⟩ | ⟨w, k', hf, -, hdec, rfl⟩ |
    ⟨w, i, -, -, -, hexec⟩⟩ := step_cases h
  · cases hfaulted
    exact ⟨rfl, .inl hfail⟩
  · cases hfaulted
  · cases hfaulted
    exact ⟨rfl, .inr ⟨w, hf, hdec⟩⟩
  · rw [exec_status hexec, hrunning] at hfaulted
    cases hfaulted

/-- Settles O27: from a Faulted next state by `eq_failRun_of_faulted_step`, from the failure by the
step at a failed fetch and at a word that does not decode. -/
theorem failedStepChangesOnlyTheStatus : Obligations.FailedStepChangesOnlyTheStatus := by
  refine ⟨fun s t k h hfaulted => ?_, fun s k hs hfail => step_of_fetch_error hs hfail,
    fun s w k hs hf hw hdec => step_of_illegal_word hs hf hw hdec⟩
  obtain ⟨heq, hcause⟩ := eq_failRun_of_faulted_step h hfaulted
  exact ⟨heq, by simp [hfaulted], hcause⟩

/-- Settles O26: each branch of the chain is the step at one result of the fetch and the decoder. -/
theorem stepOutcomesInOrder : Obligations.StepOutcomesInOrder := by
  refine ⟨fun i s => ?_, fun s hs => ?_⟩
  · obtain ⟨t, hexec⟩ := exists_exec_eq_next i s
    exact ⟨t, hexec, exec_status hexec⟩
  split
  case isTrue hmisaligned => exact step_of_fetch_error hs (State.iFetch_misaligned hmisaligned)
  case isFalse hmisaligned =>
    have haligned : s.pc.toNat % 4 = 0 := not_not.1 hmisaligned
    split
    case isTrue hout => exact step_of_fetch_error hs (State.iFetch_outOfRange haligned hout)
    case isFalse hout =>
      have hrange : s.pc.toNat / 4 < s.config.imemWords := Nat.not_le.1 hout
      split
      case h_1 hslot => exact step_of_fetch_error hs (State.iFetch_unloaded haligned hrange hslot)
      case h_2 w hslot =>
        have hf := State.iFetch_ok haligned hrange hslot
        split
        case isTrue hw => exact step_of_halt_word hs (hw ▸ hf)
        case isFalse hw =>
          split
          case h_1 k hdec => exact step_of_illegal_word hs hf hw hdec
          case h_2 i hdec => exact step_of_decoded_word hs hf hw hdec

end Sys2Proof.Machine

/-! ## The machine as a whole: invariants, runs, and what an instruction may touch -/

namespace Sys2Proof.Machine

open Claims

/-! ### The invariant -/

/-- A failed fetch explains the status Faulted (R161). -/
theorem State.stopStatus_of_fetch_error {s : State} {k : FaultKind} (hf : s.iFetch = .error k) :
    s.stopStatus = .faulted k := by
  rw [State.stopStatus, hf]

/-- The halt word explains the status Halted (R31). -/
theorem State.stopStatus_of_halt_word {s : State} (hf : s.iFetch = .ok 0#32) :
    s.stopStatus = .halted := by
  simp only [State.stopStatus, hf, if_true]

/-- A failed decode of another word explains the status Faulted (R161). -/
theorem State.stopStatus_of_decode_error {s : State} {w : Word} {k : FaultKind}
    (hf : s.iFetch = .ok w) (hw : w ≠ 0#32) (hdec : decodeBinary w = .error k) :
    s.stopStatus = .faulted k := by
  simp only [State.stopStatus, hf, if_neg hw, hdec]

/-- An executed instruction keeps data memory canonical and inside MEM_SIZE (R35). -/
theorem exec_keeps_mem {i : Instr} {s t : State} (h : exec i s = .next t) (hwf : s.mem.wf)
    (hbound : ∀ c ∈ s.mem, c.1 < s.config.memSize) :
    t.mem.wf ∧ ∀ c ∈ t.mem, c.1 < t.config.memSize := by
  obtain ⟨n, a, v, rd, r, p, rfl⟩ := exec_eq_next h
  simp only [State.setPc_mem, State.setPc_config, State.writeReg_mem, State.writeReg_config,
    State.memWrite_config]
  exact ⟨s.memWrite_wf hwf n, s.memWrite_bound (memSize_pos _) hbound n⟩

/-- A machine that stops with the status its pc explains keeps the invariant: nothing else changes
(R161, R163). -/
theorem State.inv_of_stopStatus {s : State} (h : s.Inv) {stop : Status}
    (hstop : s.stopStatus = stop) : ({ s with status := stop } : State).Inv := by
  obtain ⟨hconfig, hwf, hbound, hrising, hslots, -⟩ := h
  exact ⟨hconfig, hwf, hbound, hrising, hslots, .inr hstop.symm⟩

/-- An executed instruction keeps the invariant of a Running machine: it writes memory canonically
and does not stop. -/
theorem exec_keeps_inv {i : Instr} {s t : State} (h : s.Inv) (hrunning : s.status = .running)
    (hexec : exec i s = .next t) : t.Inv := by
  obtain ⟨hconfig, hwf, hbound, hrising, hslots, -⟩ := h
  obtain ⟨hwf', hbound'⟩ := exec_keeps_mem hexec hwf hbound
  obtain ⟨himem, hconfig'⟩ := exec_imem_config hexec
  rw [State.Inv, himem, hconfig']
  exact ⟨hconfig, hwf', hconfig' ▸ hbound', hrising, hslots,
    .inl ((exec_status hexec).trans hrunning)⟩

/-- Settles O36: a step that stops changes the status alone, to the one the pc explains; an executed
instruction keeps the machine Running. -/
theorem stepKeepsLegalStates : Obligations.StepKeepsLegalStates := by
  intro s t hinv hstep
  obtain ⟨hrunning, ⟨k, hf, rfl⟩ | ⟨hf, rfl⟩ | ⟨w, k, hf, hw, hdec, rfl⟩ |
    ⟨w, i, -, -, -, hexec⟩⟩ := step_cases hstep
  · exact State.inv_of_stopStatus hinv (State.stopStatus_of_fetch_error hf)
  · exact State.inv_of_stopStatus hinv (State.stopStatus_of_halt_word hf)
  · exact State.inv_of_stopStatus hinv (State.stopStatus_of_decode_error hf hw hdec)
  · exact exec_keeps_inv hinv hrunning hexec

/-- MEM_INIT's bytes give a canonical memory inside MEM_SIZE (R34, R35). -/
theorem Launch.memory_wf_bound (l : Launch) :
    l.memory.wf ∧ ∀ c ∈ l.memory, c.1 < l.config.memSize := by
  unfold Launch.memory
  refine List.foldlRecOn (motive := fun m : Memory => m.wf ∧ ∀ c ∈ m, c.1 < l.config.memSize)
    l.memInit _ ⟨⟨.nil, by simp⟩, by simp⟩ fun m hm c _ => ?_
  obtain ⟨hwf, hbound⟩ := hm
  exact ⟨Memory.wf_setByte hwf _ _, Memory.bound_setByte hbound (Nat.mod_lt _ (memSize_pos _)) _⟩

/-- Settles O35: memory by its bytes one after another, the store by the slots of a program. -/
theorem newSessionIsLegal : Obligations.NewSessionIsLegal := by
  intro l s hvalid hsession
  obtain ⟨hfits, rfl⟩ := createSession_eq_some_iff.1 hsession
  obtain ⟨hwf, hbound⟩ := l.memory_wf_bound
  refine ⟨hvalid, hwf, hbound, rising_programSlots _ _, fun c hc => ?_, .inl rfl⟩
  obtain ⟨-, hlt⟩ := bound_programSlots _ _ c hc
  exact (show c.1 < l.config.imemWords by omega)

/-- Settles O34: the reset state is the session of a launch with no program, no bytes and the
registers of the reset state. -/
theorem resetStateIsLegal : Obligations.ResetStateIsLegal :=
  newSessionIsLegal
    { config := defaultConfig, program := [], regInit := Vector.replicate 31 defaultReg,
      memInit := [] } State.reset (by decide) rfl

/-- Settles O33: every clause but the registers' reads a field of the reset state. -/
theorem resetStateFields : Obligations.ResetStateFields := by
  refine ⟨rfl, rfl, fun k => rfl, fun i => ?_, fun a => rfl, rfl, rfl⟩
  by_cases hi : i = 0#5
  · rw [hi, State.readReg_zero]
  · obtain ⟨hslot, -⟩ := regSlot_lt hi
    simp [State.readReg_of_ne_zero _ hi, State.reset, Vector.getD, hslot, defaultReg]

/-! ### MEM_INIT as a list of bytes -/

/-- A list of bytes that gives data memory the first `size` bytes of `contents`. -/
def bytesBelow (size : Nat) (contents : Nat → Byte) : List Host.Cell :=
  (List.range size).map fun a => (a, contents a)

/-- A list that gives each byte of data memory once gives it those bytes. -/
theorem Launch.byteAt_memory_bytesBelow {l : Launch} {contents : Nat → Byte}
    (hl : l.memInit = bytesBelow l.config.memSize contents) {a : Nat} (ha : a < l.config.memSize) :
    l.memory.byteAt a = contents a := by
  have hlt : ∀ d ∈ l.memInit, d.1 < l.config.memSize := by simp [hl, bytesBelow]
  have hnodup : (l.memInit.map fun d => d.1).Nodup := by
    simpa [hl, bytesBelow, Function.comp_def] using List.nodup_range
  exact Launch.byteAt_memory_of_nodup (c := (a, contents a)) hlt hnodup
    (by simp [hl, bytesBelow, ha])

/-- Settles O53: the last entry and the bytes left out by the folds of O32, and for any contents the
list of all its bytes. -/
theorem memInitListGivesDataMemory : Obligations.MemInitListGivesDataMemory := by
  refine ⟨fun l s hsession a _ => ?_, fun l s contents hsession => ?_⟩
  · obtain ⟨-, rfl⟩ := createSession_eq_some_iff.1 hsession
    refine ⟨fun before after v b hsplit ha hlast => ?_, fun hnone => ?_⟩
    · subst ha
      exact Launch.byteAt_memory_of_last hsplit hlast
    · exact Memory.byteAt_foldl_setByte_of_ne hnone []
  · obtain ⟨hfits, rfl⟩ := createSession_eq_some_iff.1 hsession
    exact ⟨bytesBelow l.config.memSize contents, _, createSession_eq_some_iff.2 ⟨hfits, rfl⟩,
      fun a ha => Launch.byteAt_memory_bytesBelow rfl ha, rfl, rfl, rfl, rfl, rfl⟩

/-! ### The step and bounded runs -/

/-- Settles O24: a word that decodes is not the halt word, so the step goes on to execute. -/
theorem stepRunsTheDecodedInstruction : Obligations.StepRunsTheDecodedInstruction := by
  intro s w i hrunning haligned hrange hslot hdec
  obtain ⟨-, hhalt, -, -⟩ := allZeroWordHalts
  have hw : w ≠ 0#32 := by
    rintro rfl
    rw [hhalt] at hdec
    cases hdec
  exact step_of_decoded_word hrunning (State.iFetch_ok haligned hrange hslot) hw hdec

/-- A machine that has stopped has no step (R28). -/
theorem exists_fault_of_not_running {s : State} (h : s.status ≠ .running) :
    ∃ r, step s = .fault r := by
  cases hs : s.status with
  | running => exact absurd hs h
  | halted => exact ⟨_, step_of_halted hs⟩
  | faulted k => exact ⟨_, step_of_faulted hs⟩

@[simp] theorem runFor_zero (s : State) : runFor 0 s = s := rfl

/-- A run whose first step answers `t` goes on from `t`. -/
theorem runFor_succ_of_step {s t : State} (h : step s = .next t) (n : Nat) :
    runFor (n + 1) s = runFor n t := by
  rw [runFor, h]

/-- A run from a stopped machine stays there (R33). -/
theorem runFor_of_not_running {s : State} (h : s.status ≠ .running) (n : Nat) :
    runFor n s = s := by
  cases n with
  | zero => rfl
  | succ n =>
    obtain ⟨r, hstep⟩ := exists_fault_of_not_running h
    rw [runFor, hstep]

/-- A run of `m + n` steps splits after `m` (R173). -/
theorem runFor_add (m n : Nat) (s : State) : runFor (m + n) s = runFor n (runFor m s) := by
  induction m generalizing s with
  | zero => rw [Nat.zero_add, runFor_zero]
  | succ m ih =>
    by_cases hs : s.status = .running
    · obtain ⟨t, hstep⟩ := exists_step_of_running hs
      rw [Nat.succ_add, runFor_succ_of_step hstep, runFor_succ_of_step hstep, ih]
    · simp only [runFor_of_not_running hs]

/-- Settles O30: the split by `runFor_add`, the rest by what a run does with its first step. -/
theorem boundedRunsCompose : Obligations.BoundedRunsCompose :=
  ⟨runFor_add, fun n _ hs => runFor_of_not_running hs n, fun _ _ hstep =>
    runFor_succ_of_step hstep 0⟩

/-! ### What an executed instruction may touch, by format (R19) -/

/-- Two states agree on all that an instruction may read: pc, data memory, the parameters and the
source registers of its format. -/
structure SameSources (i : Instr) (s s' : State) : Prop where
  pc : s.pc = s'.pc
  mem : s.mem = s'.mem
  config : s.config = s'.config
  reg : ∀ j ∈ readsRegs i, s.readReg j = s'.readReg j

/-- An instruction that writes one value to its rd and goes to one pc, both of them functions of its
sources. -/
def WritesFromSources (i : Instr) : Prop :=
  ∃ v p : State → Word,
    (∀ s, exec i s = .next ((s.writeReg i.fields.rd (v s)).setPc (p s))) ∧
    ∀ s s', SameSources i s s' → v s = v s' ∧ p s = p s'

/-- An instruction that writes a result of its sources and goes on. -/
theorem writesFromSources_of_finish {i : Instr} {v : State → Word}
    (h : ∀ s, exec i s = .next (s.finish i.fields.rd (v s)))
    (hv : ∀ s s', SameSources i s s' → v s = v s') : WritesFromSources i := by
  refine ⟨v, fun s => s.pc + 4#32, fun s => ?_, fun s s' hs => ⟨hv s s' hs, ?_⟩⟩
  · rw [h, State.finish_eq]
  · exact congrArg (· + 4#32) hs.pc

/-- An instruction that combines its two source registers. -/
theorem writesFromSources_of_aluRegForm {i : Instr} {op : AluOp}
    (h : ∀ s, exec i s = aluRegForm op i.fields.rd i.fields.rs1 i.fields.rs2 s)
    (hrs1 : i.fields.rs1 ∈ readsRegs i) (hrs2 : i.fields.rs2 ∈ readsRegs i) :
    WritesFromSources i :=
  writesFromSources_of_finish h fun _ _ hs => by rw [hs.reg _ hrs1, hs.reg _ hrs2]

/-- An instruction that combines its source register and its immediate. -/
theorem writesFromSources_of_aluImmForm {i : Instr} {op : AluOp}
    (h : ∀ s, exec i s = aluImmForm op i.fields.rd i.fields.rs1 i.fields.imm s)
    (hrs1 : i.fields.rs1 ∈ readsRegs i) : WritesFromSources i :=
  writesFromSources_of_finish h fun _ _ hs => by rw [hs.reg _ hrs1]

/-- Loads address memory by one source register. -/
theorem writesFromSources_of_loadForm {i : Instr} {n : Nat} {widen : Nat → Int}
    (h : ∀ s, exec i s = loadForm n widen i.fields.rd i.fields.rs1 i.fields.imm s)
    (hrs1 : i.fields.rs1 ∈ readsRegs i) : WritesFromSources i :=
  writesFromSources_of_finish h fun s s' hs => by
    simp only [State.effectiveAddr, hs.reg _ hrs1, State.memRead_congr hs.mem hs.config]

/-- JALR's target comes from its base register or, where that is the link it has just written, from
pc (R150). -/
theorem writesFromSources_jalr (rd rs1 : RegIdx) (imm : ImmI) :
    WritesFromSources (.jalr rd rs1 imm) :=
  ⟨_, _, fun s => exec_jalr s rd rs1 imm, fun s s' hs => by
    simp only [jalrBase_eq, hs.pc, hs.config, hs.reg rs1 (.head _), and_self]⟩

/-- Every instruction is a store, a branch, or writes its rd from its sources, by its format. -/
theorem exec_by_format (i : Instr) :
    ((specFor i.mnemonic).format = .s ∧
      ∃ n, ∀ s, exec i s = storeForm n i.fields.rs1 i.fields.rs2 i.fields.imm s) ∨
    ((specFor i.mnemonic).format = .b ∧
      ∃ c, ∀ s, exec i s = branchForm c i.fields.rs1 i.fields.rs2 i.fields.imm s) ∨
    (destReg i = some i.fields.rd ∧ WritesFromSources i) := by
  cases i
  case sb | sh | sw => exact .inl ⟨rfl, _, fun _ => rfl⟩
  case beq | bne | blt | bge | bltu | bgeu => exact .inr (.inl ⟨rfl, _, fun _ => rfl⟩)
  case lui => exact .inr (.inr ⟨rfl, writesFromSources_of_finish (fun _ => rfl) fun _ _ _ => rfl⟩)
  case auipc =>
    exact .inr (.inr ⟨rfl, writesFromSources_of_finish (fun _ => rfl) fun _ _ hs => by rw [hs.pc]⟩)
  case jal rd imm =>
    exact .inr (.inr ⟨rfl, _, _, fun s => exec_jal s rd imm, fun _ _ hs => by
      simp only [hs.pc, and_self]⟩)
  case jalr => exact .inr (.inr ⟨rfl, writesFromSources_jalr _ _ _⟩)
  case lb | lh | lw | lbu | lhu =>
    exact .inr (.inr ⟨rfl, writesFromSources_of_loadForm (fun _ => rfl) (.head _)⟩)
  case add | sub | sll | slt | sltu | xor | srl | sra | or | and =>
    exact .inr (.inr ⟨rfl, writesFromSources_of_aluRegForm (fun _ => rfl) (.head _)
      (.tail _ (.head _))⟩)
  all_goals exact .inr (.inr ⟨rfl, writesFromSources_of_aluImmForm (fun _ => rfl) (.head _)⟩)

/-- Settles O22: an instruction always answers a next state, and keeps its status. -/
theorem everyInstructionCompletes : Obligations.EveryInstructionCompletes := by
  intro i s
  obtain ⟨t, hexec⟩ := exists_exec_eq_next i s
  exact ⟨t, hexec, exec_status hexec⟩

/-- Settles O20: a store writes no register, a branch nothing but pc, and every other format its rd
alone. -/
theorem onlyTheDestinationChanges : Obligations.OnlyTheDestinationChanges := by
  intro i s t h
  obtain ⟨himem, hconfig⟩ := exec_imem_config h
  suffices hframe : (∀ j, destReg i ≠ some j → t.readReg j = s.readReg j) ∧
      ((specFor i.mnemonic).format ≠ .s → t.mem = s.mem) from
    ⟨hframe.1, hframe.2, himem, exec_status h, hconfig⟩
  obtain ⟨hformat, n, hexec⟩ | ⟨-, c, hexec⟩ | ⟨hdest, v, p, hexec, -⟩ := exec_by_format i
  · cases (hexec s).symm.trans h
    exact ⟨fun j _ => by simp, fun hne => absurd hformat hne⟩
  · cases (hexec s).symm.trans h
    exact ⟨fun j _ => rfl, fun _ => rfl⟩
  · cases (hexec s).symm.trans h
    refine ⟨fun j hj => ?_, fun _ => s.writeReg_mem _ _⟩
    have hne : j ≠ i.fields.rd := fun he => hj (by rw [hdest, he])
    rw [State.setPc_readReg, s.readReg_writeReg_ne hne]

/-- A format with two sources and no rd. -/
theorem mem_readsRegs_of_format {i : Instr}
    (h : (specFor i.mnemonic).format = .s ∨ (specFor i.mnemonic).format = .b) :
    i.fields.rs1 ∈ readsRegs i ∧ i.fields.rs2 ∈ readsRegs i ∧ destReg i = none := by
  obtain h | h := h <;> simp [readsRegs, destReg, h]

/-- Settles O21: what is stored, where, what the comparator compares and what is written to rd are
functions of the sources. -/
theorem onlyTheSourcesMatter : Obligations.OnlyTheSourcesMatter := by
  intro i s s' t t' hpc hmem hconfig hreg h h'
  obtain ⟨hformat, n, hexec⟩ | ⟨hformat, c, hexec⟩ | ⟨hdest, v, p, hexec, hsources⟩ :=
    exec_by_format i
  · obtain ⟨hrs1, hrs2, hdest⟩ := mem_readsRegs_of_format (.inl hformat)
    cases (hexec s).symm.trans h
    cases (hexec s').symm.trans h'
    refine ⟨?_, ?_, by simp [hdest]⟩
    · simp [hpc]
    · simp only [State.effectiveAddr, hreg _ hrs1, hreg _ hrs2]
      exact State.memWrite_mem_congr hmem hconfig _ _ n
  · obtain ⟨hrs1, hrs2, hdest⟩ := mem_readsRegs_of_format (.inr hformat)
    cases (hexec s).symm.trans h
    cases (hexec s').symm.trans h'
    refine ⟨?_, hmem, by simp [hdest]⟩
    simp only [State.setPc_pc, State.pcPlus4_eq, hreg _ hrs1, hreg _ hrs2, hpc]
  · obtain ⟨hv, hp⟩ := hsources s s' ⟨hpc, hmem, hconfig, hreg⟩
    cases (hexec s).symm.trans h
    cases (hexec s').symm.trans h'
    refine ⟨hp, by simpa using hmem, fun j hj => ?_⟩
    obtain rfl : i.fields.rd = j := Option.some.inj (hdest.symm.trans hj)
    simp only [State.setPc_readReg, State.readReg_writeReg, hv, true_and]
    by_cases hrd : i.fields.rd = 0#5
    · simp [hrd]
    · simp [hrd]

/-! ### The parity of pc (R22, R66, R145) -/

/-- Adding an even number modulo 2^32 keeps bit 0. -/
theorem u32_add_even_mod_two (w : Word) {v : Int} (hv : v % 2 = 0) :
    (u32 (w.toNat + v)).toNat % 2 = w.toNat % 2 := by
  have := toNat_u32 (w.toNat + v)
  omega

/-- Settles O19: every next pc but JALR's is pc and an even number, by O18. -/
theorem onlyJalrMakesThePcOdd : Obligations.OnlyJalrMakesThePcOdd := by
  intro i s t hjalr h
  have hpc := nextPcMultiplexer i s t h
  suffices heven : ∃ v : Int, v % 2 = 0 ∧ t.pc = u32 (s.pc.toNat + v) by
    obtain ⟨v, hv, hpc⟩ := heven
    rw [hpc, u32_add_even_mod_two _ hv]
  have hbranch (taken : Bool) (imm : ImmB) : (if taken then imm.val else 4) % 2 = 0 := by
    obtain ⟨-, -, heven⟩ := imm.2
    cases taken
    · rfl
    · exact heven
  cases i
  case jalr => exact absurd rfl hjalr
  case jal rd imm => exact ⟨imm.val, imm.2.2.2, hpc⟩
  case beq | bne | blt | bge | bltu | bgeu => exact ⟨_, hbranch _ _, hpc⟩
  all_goals exact ⟨4, rfl, hpc⟩

/-! ### Loads and stores (R38, R39, R51) -/

/-- A load of the store's width, base and offset reads the bytes just stored. -/
theorem readReg_of_load_after_store {n : Nat} {widen : Nat → Int} {rd rs1 rs2 : RegIdx}
    {imm : Int} {s t u : State} (hn : n ≤ s.config.memSize) (hrd : rd ≠ 0#5)
    (hstore : storeForm n rs1 rs2 imm s = .next t)
    (hload : loadForm n widen rd rs1 imm t = .next u) :
    u.readReg rd = u32 (widen ((s.readReg rs2).toNat % 2 ^ (8 * n))) := by
  cases hstore
  cases hload
  simp [hrd, State.effectiveAddr, s.memRead_memWrite _ _ hn le_rfl]

/-- Settles O12: the bytes stored by `readReg_of_load_after_store`, then what each load makes of
them. -/
theorem loadAfterStoreReadsBack : Obligations.LoadAfterStoreReadsBack := by
  intro rd rs1 rs2 imm s t u hv hrd
  have hwidth {n : Nat} (hn : n ∈ [1, 2, 4]) : n ≤ s.config.memSize := width_le_memSize hv hn
  refine ⟨fun hstore hload => ?_, fun hstore hload => ?_, fun hstore hload => ?_⟩
  · rw [readReg_of_load_after_store (hwidth (by decide)) hrd hstore hload,
      Nat.mod_eq_of_lt (s.readReg rs2).isLt]
    exact u32_toNat _
  · rw [readReg_of_load_after_store (hwidth (by decide)) hrd hstore hload]
    exact (congrArg BitVec.toNat (u32_ofNat _)).trans (Nat.mod_eq_of_lt (by omega))
  · rw [readReg_of_load_after_store (hwidth (by decide)) hrd hstore hload, sextN,
      toInt_eq_sextOf (by decide)]
    have hbyte : (BitVec.ofNat 8 ((s.readReg rs2).toNat % 2 ^ (8 * 1))).toNat =
        (s.readReg rs2).toNat % 2 ^ 8 := by simp
    rw [hbyte]
    apply s32_u32 <;> unfold sextOf <;> split <;> omega

/-- Data memory after a sequence of stores, each as address, value and width. -/
def State.storeAll (s : State) (stores : List (Word × Word × Nat)) : State :=
  stores.foldl (fun s w => s.memWrite w.1 w.2.1 w.2.2) s

theorem State.storeAll_cons (s : State) (w : Word × Word × Nat)
    (stores : List (Word × Word × Nat)) :
    s.storeAll (w :: stores) = (s.memWrite w.1 w.2.1 w.2.2).storeAll stores := rfl

theorem State.storeAll_append (s : State) (earlier later : List (Word × Word × Nat)) :
    s.storeAll (earlier ++ later) = (s.storeAll earlier).storeAll later := List.foldl_append

@[simp] theorem State.storeAll_config (s : State) (stores : List (Word × Word × Nat)) :
    (s.storeAll stores).config = s.config := by
  induction stores generalizing s with
  | nil => rfl
  | cons w rest ih => rw [State.storeAll_cons, ih, State.memWrite_config]

@[simp] theorem State.storeAll_byteAddr (s : State) (stores : List (Word × Word × Nat)) (a : Word)
    (k : Nat) : (s.storeAll stores).byteAddr a k = s.byteAddr a k := by
  rw [State.byteAddr, State.storeAll_config, State.byteAddr]

/-- A byte that none of the stores covers reads as at the start. -/
theorem State.readByte_storeAll_of_ne (s : State) {stores : List (Word × Word × Nat)} {b : Nat}
    (h : ∀ w ∈ stores, ∀ k < w.2.2, b ≠ s.byteAddr w.1 k) :
    (s.storeAll stores).readByte b = s.readByte b := by
  induction stores generalizing s with
  | nil => rfl
  | cons w rest ih =>
    obtain ⟨hw, hrest⟩ := List.forall_mem_cons.1 h
    rw [State.storeAll_cons, ih _ (by simpa using hrest), s.readByte_memWrite_of_ne hw]

/-- Settles O13: the stores after the last one to reach the byte leave it, and that one puts its own
byte there. -/
theorem lastStoreToAByteWins : Obligations.LastStoreToAByteWins := by
  intro s hv
  refine ⟨fun stores b h => s.readByte_storeAll_of_ne h,
    fun earlier later a v n k hn hk hlater => ?_⟩
  change (s.storeAll (earlier ++ (a, v, n) :: later)).readByte (s.byteAddr a k) = _
  have hfits : n ≤ (s.storeAll earlier).config.memSize := by
    have := four_le_memSize hv
    rw [State.storeAll_config]
    omega
  rw [State.storeAll_append, State.storeAll_cons,
    State.readByte_storeAll_of_ne _ (by simpa using hlater), ← s.storeAll_byteAddr earlier,
    State.readByte_memWrite _ hfits hk, byteOf_eq]

end Sys2Proof.Machine

/-! ## The codec as a whole: the decoder's answers, accepted text and the two transforms -/

namespace Sys2Proof

open Claims

/-! ### The decoder's answers (R80) -/

/-- An instruction's record is valid (R66). -/
theorem wellFormed_fields (i : Instr) : i.fields.WellFormed (specFor i.mnemonic).format :=
  (wellFormed_iff_immInSet _ _).2 (immInSet_fields i)

/-- Settles O39: the decoder answers an instruction, which is valid and encodes to the word, or the
one error it has. -/
theorem decoderAnswersValidOrUnknown : Obligations.DecoderAnswersValidOrUnknown := by
  intro w
  cases hdec : decodeBinary w with
  | ok i => exact .inl ⟨i, rfl, wellFormed_fields i, encode_of_decodeBinary hdec⟩
  | error k => exact .inr (by rw [decodeBinary_error hdec])

/-- Settles O45: each of the nine words is evaluated. -/
theorem sampleWordsDecode : Obligations.SampleWordsDecode :=
  ⟨by decide, by decide, by decide, by decide, by decide, by decide, by decide, by decide,
    by decide⟩

/-! ### Printed numbers and names (R90 to R92, R99, R100) -/

/-- Settles O47: the magnitude reads back, and the sign before it. -/
theorem printedNumbersReadBack : Obligations.PrintedNumbersReadBack := literalValue_numberText

/-- White space at the end of a text is trimmed with what stands before it. -/
theorem trim_append_space {t : Text} (h : Tight t) : trim (t ++ [' ']) = t := by
  cases t with
  | nil => rfl
  | cons c rest =>
    have hfirst : isSpace c = false := h.1 c rest rfl
    have hspace : isSpace ' ' = true := rfl
    rw [trim, List.cons_append, List.dropWhile_cons_of_neg (by simp [hfirst]), ← List.cons_append,
      List.reverse_append, List.reverse_singleton, List.singleton_append,
      List.dropWhile_cons_of_pos hspace, dropWhile_eq_self h.2, List.reverse_reverse]

theorem toUpper_digitChar {d : Nat} (h : d < 10) :
    (digitChar false d).toUpper = digitChar false d := by
  interval_cases d <;> rfl

/-- A printed register name in upper case: its digits have no case. -/
theorem map_toUpper_regText (i : RegIdx) :
    (regText i).map Char.toUpper = 'X' :: digits 10 false i.toNat := by
  rw [regText, List.map_cons]
  refine congrArg (List.cons 'X') ((List.map_congr_left fun c hc => ?_).trans (List.map_id _))
  obtain ⟨d, hd, rfl⟩ := mem_digits (by decide) hc
  exact toUpper_digitChar hd

/-- Settles O48: a register's name by `parseRegister_regText`, which upper case and white space
around it do not change; the ABI table is evaluated. -/
theorem registerNamesReadBack : Obligations.RegisterNamesReadBack := by
  refine ⟨fun i => ⟨parseRegister_regText i, ?_⟩, by decide, by decide, by decide⟩
  have hupper : trim (' ' :: (regText i).map Char.toUpper ++ [' ']) =
      'X' :: digits 10 false i.toNat := by
    rw [map_toUpper_regText, List.cons_append, trim_cons_space rfl]
    refine trim_append_space (tight_of_all fun c hc => ?_)
    obtain rfl | hdigit := List.mem_cons.1 hc
    · rfl
    · exact isSpace_of_plainChar (plainChar_digits (by decide) (by decide) c hdigit)
  have hlower : lower (trim (' ' :: (regText i).map Char.toUpper ++ [' '])) =
      lower (trim (regText i)) := by
    rw [hupper, trim_of_plainChar (plainChar_regText i)]
    rfl
  rw [parseRegister, hlower, ← parseRegister, parseRegister_regText]

/-! ### What the operand parser accepts (R82, R93, D26) -/

/-- Whatever a computation that may fail answers, it meets `P`. -/
def Ensures {α : Type} (x : Except ErrorKind α) (P : α → Prop) : Prop := ∀ a, x = .ok a → P a

section
variable {α β : Type} {x : Except ErrorKind α} {f : α → Except ErrorKind β} {P : β → Prop}

theorem ensures_error {k : ErrorKind} : Ensures (.error k) P := fun _ h => by cases h

theorem ensures_pure {b : β} (h : P b) : Ensures (pure b) P := fun _ hb => by cases hb; exact h

/-- A second part that may use what the first one ensures. -/
theorem Ensures.bind {Q : α → Prop} (hx : Ensures x Q) (hf : ∀ a, Q a → Ensures (f a) P) :
    Ensures (x >>= f) P := by
  cases x with
  | error k => exact ensures_error
  | ok a => exact hf a (hx a rfl)

/-- A second part that ensures `P` whatever the first one answers. -/
theorem ensures_bind (hf : ∀ a, Ensures (f a) P) : Ensures (x >>= f) P :=
  Ensures.bind (Q := fun _ => True) (fun _ _ => trivial) fun a _ => hf a

end

/-- What parseImmediate accepts is aligned and in range (R93). -/
theorem immInRange_of_parseImmediate {lit : Text} {width loZero : Nat} {signed : Bool} {v : Int}
    (h : parseImmediate lit width loZero signed = .ok v) :
    v % 2 ^ loZero = 0 ∧ ImmInRange width signed v := by
  cases hlit : literalValue lit with
  | none => rw [parseImmediate_of_none hlit] at h; cases h
  | some v' =>
    by_cases hlow : v' % 2 ^ loZero = 0
    · obtain ⟨hin, hout⟩ :=
        parseImmediate_of_aligned (width := width) (signed := signed) hlit hlow
      by_cases hrange : ImmInRange width signed v'
      · cases (hin hrange).symm.trans h
        exact ⟨hlow, hrange⟩
      · cases (hout hrange).symm.trans h
    · rw [parseImmediate_of_misaligned hlit hlow] at h; cases h

/-- What a format's immediate parses to lies in the set of the format (R66, R95). -/
theorem parseFormatImm_ensures (format : Format) (lit : Text) :
    Ensures (parseFormatImm format lit) (ImmInSet format) := by
  intro v h
  cases format
  case r => cases h
  case u =>
    cases hlit : parseImmediate lit 20 0 false with
    | error k => rw [parseFormatImm, hlit] at h; cases h
    | ok k =>
      rw [parseFormatImm, hlit] at h
      obtain ⟨-, hnonneg, hlt⟩ := immInRange_of_parseImmediate hlit
      cases h
      exact ⟨k, hnonneg, by omega, rfl⟩
  all_goals
    obtain ⟨hlow, hlower, hupper⟩ := immInRange_of_parseImmediate h
    simp only [ImmInSet]
    omega

section
variable (format : Format) (ops : List Text)

theorem parseRegRegImm_ensures :
    Ensures (parseRegRegImm format ops) fun f => ImmInSet format f.imm := by
  unfold parseRegRegImm
  split
  · exact ensures_bind fun _ => ensures_bind fun _ =>
      (parseFormatImm_ensures format _).bind fun _ himm => ensures_pure himm
  · exact ensures_error

theorem parseBranchOps_ensures :
    Ensures (parseBranchOps format ops) fun f => ImmInSet format f.imm := by
  unfold parseBranchOps
  split
  · exact ensures_bind fun _ => ensures_bind fun _ =>
      (parseFormatImm_ensures format _).bind fun _ himm => ensures_pure himm
  · exact ensures_error

theorem parseRegImm_ensures :
    Ensures (parseRegImm format ops) fun f => ImmInSet format f.imm := by
  unfold parseRegImm
  split
  · exact ensures_bind fun _ =>
      (parseFormatImm_ensures format _).bind fun _ himm => ensures_pure himm
  · exact ensures_error

theorem parseMemoryForm_ensures (piece : Text) :
    Ensures (parseMemoryForm format piece) fun p => ImmInSet format p.1 := by
  unfold parseMemoryForm
  split
  · exact ensures_error
  · exact (parseFormatImm_ensures format _).bind fun _ himm =>
      ensures_bind fun _ => ensures_pure himm

theorem parseRegMem_ensures :
    Ensures (parseRegMem format ops) fun f => ImmInSet format f.imm := by
  unfold parseRegMem
  split
  · exact ensures_bind fun _ =>
      (parseMemoryForm_ensures format _).bind fun _ himm => ensures_pure himm
  · exact ensures_error

theorem parseStoreOps_ensures :
    Ensures (parseStoreOps format ops) fun f => ImmInSet format f.imm := by
  unfold parseStoreOps
  split
  · exact ensures_bind fun _ =>
      (parseMemoryForm_ensures format _).bind fun _ himm => ensures_pure himm
  · exact ensures_error

end

/-- The operands of a mnemonic parse to an immediate of its format. -/
theorem parseOperands_ensures (m : Mnemonic) (ops : List Text) :
    Ensures (parseOperands m ops) fun f => ImmInSet (specFor m).format f.imm := by
  unfold parseOperands
  cases (specFor m).format
  case r => exact fun _ _ => trivial
  case i =>
    dsimp only
    split
    · exact parseRegMem_ensures .i ops
    · exact parseRegRegImm_ensures .i ops
  case i2 => exact parseRegRegImm_ensures .i2 ops
  case s => exact parseStoreOps_ensures .s ops
  case b => exact parseBranchOps_ensures .b ops
  case u => exact parseRegImm_ensures .u ops
  case j => exact parseRegImm_ensures .j ops

/-- A valid record is structured as its instruction (R66). -/
theorem exists_structured {m : Mnemonic} {f : Fields} (h : ImmInSet (specFor m).format f.imm) :
    ∃ i, instrOf m f = some i ∧ structured m f = .ok i := by
  rw [← wellFormed_iff_immInSet, ← isSome_instrOf, Option.isSome_iff_exists] at h
  obtain ⟨i, hi⟩ := h
  exact ⟨i, hi, by rw [structured, hi]⟩

/-- A line whose mnemonic and operands are accepted decodes to what their record is structured as
(R94, R95). -/
theorem decodeText_of_parts {line : Text} {m : Mnemonic} {f : Fields}
    (hm : specForText ((trim (stripComment line)).takeWhile fun c => !isSpace c) = .ok m)
    (hf : parseOperands m ((splitCommas ((trim (stripComment line)).dropWhile
      fun c => !isSpace c)).map trim) = .ok f) : decodeText line = structured m f := by
  simp only [decodeText, hm, bind, Except.bind, hf]

/-- Settles O50: accepted operands have an immediate of their format, so they are structured, and
decodeText goes on to answer that. -/
theorem acceptedTextIsValid : Obligations.AcceptedTextIsValid := by
  refine ⟨fun m ops f h => ?_, fun line m f hm hf => ?_, fun line i _ => wellFormed_fields i⟩
  · have himm := parseOperands_ensures m ops f h
    exact ⟨(wellFormed_iff_immInSet _ f).2 himm, exists_structured himm⟩
  · obtain ⟨i, hi, hstructured⟩ := exists_structured (parseOperands_ensures m _ f hf)
    exact ⟨i, (decodeText_of_parts hm hf).trans hstructured, hi⟩

/-! ### The two transforms, line by line (R103 to R105) -/

/-- A character of a canonical line. -/
theorem mem_encodeText {i : Instr} {c : Char} (hc : c ∈ encodeText i) :
    operandChar c = true ∨ c = ',' ∨ c = ' ' := by
  obtain ⟨hname, -, -, -⟩ := i.mnemonic.name_spec
  obtain ⟨-, hops⟩ := operandTexts_spec i.mnemonic i.fields
  obtain ⟨n, hline⟩ := encodeText_eq i
  rw [hline] at hc
  simp only [List.mem_append] at hc
  obtain (hc | hc) | hc := hc
  exacts [.inl (operandChar_of_plainChar (hname c hc)), .inr (.inr (List.eq_of_mem_replicate hc)),
    mem_commaJoin hops c hc]

/-- A line without a colon has no label. -/
theorem afterLastColon_eq_self {t : Text} (h : ∀ c ∈ t, c ≠ ':') : afterLastColon t = t := by
  rw [afterLastColon, List.takeWhile_eq_self_iff.2, List.reverse_reverse]
  intro c hc
  exact decide_eq_true (h c (List.mem_reverse.1 hc))

theorem afterLastColon_encodeText (i : Instr) : afterLastColon (encodeText i) = encodeText i := by
  refine afterLastColon_eq_self fun c hc => ?_
  rintro rfl
  exact absurd (mem_encodeText hc) (by decide)

section
variable {line : Text}

/-- A line with nothing left after comment and label is blank (R103). -/
theorem assembleLine_of_blank (h : trim (afterLastColon (stripComment line)) = []) :
    assembleLine line = [] := by
  simp [assembleLine, h]

/-- A line that parses displays its word (R103). -/
theorem assembleLine_of_decode {i : Instr}
    (hne : trim (afterLastColon (stripComment line)) ≠ [])
    (h : decodeText (trim (afterLastColon (stripComment line))) = .ok i) :
    assembleLine line = displayWord (encode i) := by
  simp [assembleLine, hne, assembleWord, h, Except.map]

/-- A line that does not parse is ERROR (R105). -/
theorem assembleLine_of_not_decode
    (hne : trim (afterLastColon (stripComment line)) ≠ [])
    (h : ∀ i, decodeText (trim (afterLastColon (stripComment line))) ≠ .ok i) :
    assembleLine line = errorLine := by
  cases hdec : decodeText (trim (afterLastColon (stripComment line))) with
  | ok i => exact absurd hdec (h i)
  | error k => simp [assembleLine, hne, assembleWord, hdec, Except.map]

end

theorem encodeText_ne_nil (i : Instr) : encodeText i ≠ [] := by
  obtain ⟨n, hline⟩ := encodeText_eq i
  simp [hline]

/-- The word a cleaned line holds, where it decodes, is what the line prints (R104). -/
theorem disassembleBody_of_decode {c : Text} {w : Word} {i : Instr} (hw : parseHexLine c = .ok w)
    (h : decodeBinary w = .ok i) : disassembleBody c = encodeText i := by
  simp only [disassembleBody, disassembleWord, hw, h]

theorem disassembleBody_of_decode_error {c : Text} {w : Word} {k : FaultKind}
    (hw : parseHexLine c = .ok w) (h : decodeBinary w = .error k) :
    disassembleBody c = errorLine := by
  simp only [disassembleBody, disassembleWord, hw, h]

theorem disassembleBody_of_malformed {c : Text} {k : ErrorKind} (h : parseHexLine c = .error k) :
    disassembleBody c = errorLine := by
  simp only [disassembleBody, disassembleWord, h]

/-- Settles O51: a canonical line has no comment, label or white space to strip, so it parses back
(O49); its displayed word reads back and decodes to it (O37). -/
theorem assembleThenDisassemble : Obligations.AssembleThenDisassemble := by
  intro i fmt
  constructor
  · have hline : trim (afterLastColon (stripComment (encodeText i))) = encodeText i := by
      rw [stripComment_encodeText, afterLastColon_encodeText, trim_encodeText]
    have hassemble : assembleLine (encodeText i) = displayWord (encode i) :=
      assembleLine_of_decode (by rw [hline]; exact encodeText_ne_nil i)
        (by rw [hline]; exact decodeTextOfEncodeText i)
    rw [assembleText, List.map_singleton, hassemble]
  · rw [disassembleText_displayWord,
      disassembleBody_of_decode (parseHexLine_displayWord _) (decodeOfEncode i)]

/-! #### Hexadecimal lines -/

/-- `mapM` over an option answers a list exactly where every element is answered. -/
theorem mapM_eq_some_iff {α β : Type} {f : α → Option β} {xs : List α} {ys : List β} :
    xs.mapM f = some ys ↔ xs.map f = ys.map some := by
  induction xs generalizing ys with
  | nil => cases ys <;> simp
  | cons x xs ih =>
    cases ys with
    | nil => simp [Option.bind_eq_some_iff]
    | cons y ys => simp [Option.bind_eq_some_iff, ih, and_comm]

/-- A digit's value is below 16, and its character in one of three ranges (R104). -/
theorem hexDigit_spec {c : Char} {d : Nat} (h : hexDigit c = some d) :
    d < 16 ∧ (48 ≤ c.toNat ∧ c.toNat ≤ 57 ∨ 97 ≤ c.toNat ∧ c.toNat ≤ 102 ∨
      65 ≤ c.toNat ∧ c.toNat ≤ 70) := by
  unfold hexDigit at h
  split at h
  · cases h
    omega
  · split at h
    · cases h
      omega
    · split at h
      · cases h
        omega
      · cases h

/-- A character with a digit's value is one of the 22 digits (R104). -/
theorem mem_hexDigits {c : Char} {d : Nat} (h : hexDigit c = some d) :
    c ∈ "0123456789abcdefABCDEF".toList := by
  obtain ⟨-, hrange⟩ := hexDigit_spec h
  rw [← Char.ofNat_toNat c]
  generalize c.toNat = n at hrange
  obtain ⟨hlow, hhigh⟩ | ⟨hlow, hhigh⟩ | ⟨hlow, hhigh⟩ := hrange
  all_goals interval_cases n <;> decide

/-- A line that parses has exactly 8 characters, each a digit (R104). -/
theorem parseHexLine_ok_spec {c : Text} {w : Word} (h : parseHexLine c = .ok w) :
    c.length = 8 ∧ ∀ ch ∈ c, ch ∈ "0123456789abcdefABCDEF".toList := by
  unfold parseHexLine at h
  split at h
  case h_1 h0 l0 h1 l1 h2 l2 h3 l3 hdigits =>
    rw [mapM_eq_some_iff] at hdigits
    refine ⟨by simpa using congrArg List.length hdigits, fun ch hch => ?_⟩
    have hmem : hexDigit ch ∈ [h0, l0, h1, l1, h2, l2, h3, l3].map some :=
      hdigits ▸ List.mem_map_of_mem hch
    obtain ⟨d, -, hd⟩ := List.mem_map.1 hmem
    exact mem_hexDigits hd.symm
  case h_2 => cases h

/-- A line of 8 digits holds the word of its four byte pairs, the least significant first (R42,
R104). -/
theorem parseHexLine_of_digits {c : Text} {h0 l0 h1 l1 h2 l2 h3 l3 : Nat} {w : Word}
    (hc : c.map hexDigit =
      [some h0, some l0, some h1, some l1, some h2, some l2, some h3, some l3])
    (hw : w.toNat = (16 * h0 + l0) + (16 * h1 + l1) * 2 ^ 8 + (16 * h2 + l2) * 2 ^ 16 +
      (16 * h3 + l3) * 2 ^ 24) : parseHexLine c = .ok w := by
  have hdigits : c.mapM hexDigit = some [h0, l0, h1, l1, h2, l2, h3, l3] :=
    mapM_eq_some_iff.2 hc
  have hlt : ∀ d ∈ [h0, l0, h1, l1, h2, l2, h3, l3], d < 16 := fun d hd => by
    have hmem : some d ∈ c.map hexDigit := hc ▸ List.mem_map_of_mem (f := some) hd
    obtain ⟨ch, -, hch⟩ := List.mem_map.1 hmem
    exact (hexDigit_spec hch).1
  simp only [List.forall_mem_cons] at hlt
  simp only [parseHexLine, hdigits]
  refine congrArg Except.ok (BitVec.eq_of_toNat_eq ?_)
  simp only [wordOfBytes, toNat_append_eq, BitVec.toNat_ofNat]
  omega

/-! #### Lines in their places -/

theorem assembleText_getElem? {lines : List Text} {k : Nat} {line : Text}
    (h : lines[k]? = some line) : (assembleText lines)[k]? = some (assembleLine line) := by
  rw [assembleText, List.getElem?_map, h, Option.map_some]

/-- A line of white space and underscores only, as the statements say it. -/
def blankHexLine (line : Text) : Bool := line.all fun ch => isSpace ch || ch == '_'

theorem isEmpty_cleanHexLine (line : Text) : (cleanHexLine line).isEmpty = blankHexLine line := by
  rw [Bool.eq_iff_iff, List.isEmpty_iff, cleanHexLine, List.filter_eq_nil_iff, blankHexLine,
    List.all_eq_true]
  simp [or_iff_not_imp_left]

/-- What a line prints at address `addr` (R104). -/
def disassembleLine (fmt : AddrLabelFormat) (addr : Nat) (line : Text) : Text :=
  if blankHexLine line then [] else addrLabel fmt addr ++ disassembleBody (cleanHexLine line)

/-- Only a line that is not blank advances the address (R104, D23). -/
theorem disassembleFrom_cons (fmt : AddrLabelFormat) (addr : Nat) (line : Text)
    (rest : List Text) : disassembleFrom fmt addr (line :: rest) =
      disassembleLine fmt addr line ::
        disassembleFrom fmt (addr + if blankHexLine line then 0 else 4) rest := by
  simp only [disassembleFrom, isEmpty_cleanHexLine, disassembleLine]
  split <;> rfl

theorem length_disassembleFrom (fmt : AddrLabelFormat) (addr : Nat) (lines : List Text) :
    (disassembleFrom fmt addr lines).length = lines.length := by
  induction lines generalizing addr with
  | nil => rfl
  | cons line rest ih => rw [disassembleFrom_cons, List.length_cons, ih, List.length_cons]

/-- Line `k` is printed at the address its predecessors that are not blank have advanced to. -/
theorem disassembleFrom_getElem? (fmt : AddrLabelFormat) (addr : Nat) {lines : List Text} {k : Nat}
    {line : Text} (h : lines[k]? = some line) : (disassembleFrom fmt addr lines)[k]? =
      some (disassembleLine fmt
        (addr + 4 * (lines.take k).countP fun l => !blankHexLine l) line) := by
  induction lines generalizing addr k with
  | nil => simp at h
  | cons first rest ih =>
    rw [disassembleFrom_cons]
    cases k with
    | zero =>
      cases h
      rfl
    | succ k =>
      rw [List.getElem?_cons_succ] at h ⊢
      have haddr (n : Nat) : addr + (if blankHexLine first then 0 else 4) + 4 * n =
          addr + 4 * (n + if !blankHexLine first then 1 else 0) := by
        cases blankHexLine first
        · simp
          omega
        · simp
      rw [ih _ h, List.take_succ_cons, List.countP_cons, haddr]

/-- Settles O52: each line of assembleText by its three cases, each line of disassembleText at its
address, and what a cleaned line prints by whether it parses and decodes. -/
theorem transformsKeepLines : Obligations.TransformsKeepLines := by
  refine ⟨fun lines => List.length_map _, fun lines k line hline => ?_,
    fun fmt lines => length_disassembleFrom fmt 0 lines, fun fmt lines k line hline => ?_,
    fun c hbad => ?_, fun c h0 l0 h1 l1 h2 l2 h3 l3 w hc hw => ?_⟩
  · rw [assembleText_getElem? hline]
    exact ⟨fun h => congrArg some (assembleLine_of_blank h),
      fun i hne h => congrArg some (assembleLine_of_decode hne h),
      fun hne h => congrArg some (assembleLine_of_not_decode hne h)⟩
  · have h := disassembleFrom_getElem? fmt 0 hline
    rw [Nat.zero_add] at h
    exact h
  · cases hparse : parseHexLine c with
    | error k => exact disassembleBody_of_malformed hparse
    | ok w =>
      obtain ⟨hlength, hdigits⟩ := parseHexLine_ok_spec hparse
      obtain hne | ⟨ch, hch, hnot⟩ := hbad
      · exact absurd hlength hne
      · exact absurd (hdigits ch hch) hnot
  · have hparse := parseHexLine_of_digits hc hw
    exact ⟨fun i h => disassembleBody_of_decode hparse h,
      fun k h => disassembleBody_of_decode_error hparse h⟩

end Sys2Proof
